-- ==== Sys2Proof/Word.lean ====
section
/-! DEFINITION. The word types of the polygonoht CORE and the notation of spec/00_scope.md rule R7. -/

namespace Sys2Proof

/-- A Fixed17 pattern: 17 bits, bit 16 the sign (R7, R70). It is an integer, not a fraction (R9). -/
abbrev Fixed17 := BitVec 17

/-- One command word, 40 bits (R6 `CMDW`, R50). -/
abbrev Command := BitVec 40

/-- The sign-extended display container, XW = 32 bits (R6, R23). -/
abbrev Display := BitVec 32

/-- The width CW = 12 of C1, C11 and IDX (R6). -/
abbrev Count := BitVec 12

/-- One bit; 1 is true and 0 is false (R8). -/
abbrev Bit := BitVec 1

/-- `s17(v) = u(v) - 2^17 * v[16]` (R7). -/
def s17 (v : Fixed17) : Int := if v.getLsbD 16 then (v.toNat : Int) - 131072 else (v.toNat : Int)

/-- `mask17(n) = n mod 2^17`, for any integer n (R7). -/
def mask17 (n : Int) : Fixed17 := BitVec.ofInt 17 n

end Sys2Proof
end

