-- ==== Sys2Proof/Machine/Alu.lean ====
section
/-! DEFINITION. The pure functions of the FixedPoint17 unit: the sign-aware double, its chains, add, sub, the five scalar multiplies
and the display sign extension (spec/40_fixed17.md rules R71 to R79 and R82). -/

namespace Sys2Proof.Machine

/-- DBL, the sign-aware double: a non-negative operand shifts all 17 bits; a negative one shifts its lower 16 bits and keeps
bit 16 at 1 (R71). -/
def dbl (x : Fixed17) : Fixed17 :=
  if x.getLsbD 16 then (1#1 ++ x.extractLsb' 0 15 ++ 0#1 : BitVec 17) else x <<< 1

/-- DBLK, the double applied k times, each step by its own mask (R72). -/
def dblk (x : Fixed17) : Nat → Fixed17
  | 0 => x
  | k + 1 => dbl (dblk x k)

/-- ADD17: the sum modulo 2^17 (R73). -/
def add17 (x y : Fixed17) : Fixed17 := x + y

/-- SUB17: the difference modulo 2^17 (R74). -/
def sub17 (x y : Fixed17) : Fixed17 := x - y

/-- MUL2_17 (R75). -/
def mul2_17 (x : Fixed17) : Fixed17 := dbl x

/-- MUL5_17 = x + (x doubled twice) (R76). -/
def mul5_17 (x : Fixed17) : Fixed17 := add17 x (dblk x 2)

/-- MUL10_17 = (x doubled three times) + (x doubled once) (R77). -/
def mul10_17 (x : Fixed17) : Fixed17 := add17 (dblk x 3) (dblk x 1)

/-- MUL15_17 = (x doubled four times) - x (R78). -/
def mul15_17 (x : Fixed17) : Fixed17 := sub17 (dblk x 4) x

/-- MUL20_17 = (x doubled four times) + (x doubled twice) (R79). -/
def mul20_17 (x : Fixed17) : Fixed17 := add17 (dblk x 4) (dblk x 2)

/-- SEXT32: when bit 16 is 1, every higher bit of the container is set; otherwise the value is unchanged (R82). -/
def sext32 (x : Fixed17) : Display :=
  if x.getLsbD 16 then x.setWidth 32 ||| 0xFFFE0000#32 else x.setWidth 32

end Sys2Proof.Machine
end

