-- ==== Sys2Proof/Config.lean ====
section
/-! DEFINITION. The fixed parameters of spec/00_scope.md rule R6: none is configurable, and the spec leaves no value free. -/

namespace Sys2Proof.Config

/-- `N`: bits per block (R6). -/
def blockBits : Nat := 2304

/-- `N1 = N - 1`: the counted positions of a block and the boundary offset (R6). -/
def countedBits : Nat := 2303

/-- The longest instruction, and the only length: `CMDW` (R6, R50). -/
def commandBits : Nat := 40

end Sys2Proof.Config
end

