-- ==== Sys2Proof/Syntax.lean ====
section
/-! DEFINITION. The command set: one constructor per row of spec/opcode_table.json (spec/30_encoding.md rule R52). -/

namespace Sys2Proof

/-- A command with the operands its row uses (R51, R52). Fields a command does not use are no part of it: their value has
no effect on any register (R51). -/
inductive Instr where
  | nop
  | add (a b : Fixed17)
  | sub (a b : Fixed17)
  | mul2 (a : Fixed17)
  | mul5 (a : Fixed17)
  | mul10 (a : Fixed17)
  | mul15 (a : Fixed17)
  | mul20 (a : Fixed17)
  | lt (a b : Fixed17)
  | gt (a b : Fixed17)
  | sext (a : Fixed17)
  | classify (c1 c11 : Fixed17)
  | cntClear
  | cntBit (b : Bit)
  | cntByte (v : BitVec 8)
  | cntClassify
  deriving DecidableEq, Repr

end Sys2Proof
end

