-- ==== Sys2Proof/Decode.lean ====
section
/-! DEFINITION. Command decoding, total on every 40-bit word, and the encoder beside it (spec/30_encoding.md rules R50 to R54). -/

namespace Sys2Proof

/-- Why a word names no command: its reserved bits 39:38 are not 0 (R53). There is no other reason (R54). -/
inductive DecodeError where
  | rsvNonzero
  deriving DecidableEq, Repr

/-- `OP = w[3:0]` (R50). -/
def opField (w : Command) : BitVec 4 := w.extractLsb' 0 4

/-- `A = w[20:4]` (R50, R51). -/
def aField (w : Command) : Fixed17 := w.extractLsb' 4 17

/-- `B = w[37:21]` (R50, R51). -/
def bField (w : Command) : Fixed17 := w.extractLsb' 21 17

/-- `RSV = w[39:38]` (R50). -/
def rsvField (w : Command) : BitVec 2 := w.extractLsb' 38 2

/-- The bit operand of CNT_BIT, `w[4] = A[0]` (R51). -/
def bitOperand (w : Command) : Bit := (aField w).extractLsb' 0 1

/-- The byte operand of CNT_BYTE, `w[11:4] = A[7:0]` (R51). -/
def byteOperand (w : Command) : BitVec 8 := (aField w).extractLsb' 0 8

/-- The operation OP selects; all 16 values are assigned (R52). -/
def decodeOp (w : Command) : Instr :=
  match (opField w).toFin with
  | ⟨0x0, _⟩ => .nop
  | ⟨0x1, _⟩ => .add (aField w) (bField w)
  | ⟨0x2, _⟩ => .sub (aField w) (bField w)
  | ⟨0x3, _⟩ => .mul2 (aField w)
  | ⟨0x4, _⟩ => .mul5 (aField w)
  | ⟨0x5, _⟩ => .mul10 (aField w)
  | ⟨0x6, _⟩ => .mul15 (aField w)
  | ⟨0x7, _⟩ => .mul20 (aField w)
  | ⟨0x8, _⟩ => .lt (aField w) (bField w)
  | ⟨0x9, _⟩ => .gt (aField w) (bField w)
  | ⟨0xA, _⟩ => .sext (aField w)
  | ⟨0xB, _⟩ => .classify (aField w) (bField w)
  | ⟨0xC, _⟩ => .cntClear
  | ⟨0xD, _⟩ => .cntBit (bitOperand w)
  | ⟨0xE, _⟩ => .cntByte (byteOperand w)
  | ⟨0xF, _⟩ => .cntClassify
  | ⟨_ + 16, h⟩ => absurd h (by omega)

/-- Decode one command word; the RSV check comes before OP (R53, R58, R163). -/
def decode (w : Command) : Except DecodeError Instr :=
  if rsvField w = 0 then .ok (decodeOp w) else .error .rsvNonzero

/-- The word `{00, B, A, OP}` of format CMD40 (R50). -/
def packWord (op : BitVec 4) (a b : Fixed17) : Command := (0#2 ++ b ++ a ++ op : BitVec 40)

/-- The canonical word of a command: RSV and every field it does not use are 0 (R52, R55). -/
def encode : Instr → Command
  | .nop => packWord 0x0 0 0
  | .add a b => packWord 0x1 a b
  | .sub a b => packWord 0x2 a b
  | .mul2 a => packWord 0x3 a 0
  | .mul5 a => packWord 0x4 a 0
  | .mul10 a => packWord 0x5 a 0
  | .mul15 a => packWord 0x6 a 0
  | .mul20 a => packWord 0x7 a 0
  | .lt a b => packWord 0x8 a b
  | .gt a b => packWord 0x9 a b
  | .sext a => packWord 0xA a 0
  | .classify c1 c11 => packWord 0xB c1 c11
  | .cntClear => packWord 0xC 0 0
  | .cntBit b => packWord 0xD (b.setWidth 17) 0
  | .cntByte v => packWord 0xE (v.setWidth 17) 0
  | .cntClassify => packWord 0xF 0 0

/-- The bits of a word that have an effect, by the "encoding" column of spec/opcode_table.json: RSV, OP and the operand bits
the command uses. Every other bit is ignored (R51, R52). -/
def usedBits (w : Command) : Command :=
  match (opField w).toFin with
  | ⟨0x0, _⟩ => 0xC00000000F
  | ⟨0x1, _⟩ => 0xFFFFFFFFFF
  | ⟨0x2, _⟩ => 0xFFFFFFFFFF
  | ⟨0x3, _⟩ => 0xC0001FFFFF
  | ⟨0x4, _⟩ => 0xC0001FFFFF
  | ⟨0x5, _⟩ => 0xC0001FFFFF
  | ⟨0x6, _⟩ => 0xC0001FFFFF
  | ⟨0x7, _⟩ => 0xC0001FFFFF
  | ⟨0x8, _⟩ => 0xFFFFFFFFFF
  | ⟨0x9, _⟩ => 0xFFFFFFFFFF
  | ⟨0xA, _⟩ => 0xC0001FFFFF
  | ⟨0xB, _⟩ => 0xFFFFFFFFFF
  | ⟨0xC, _⟩ => 0xC00000000F
  | ⟨0xD, _⟩ => 0xC00000001F
  | ⟨0xE, _⟩ => 0xC000000FFF
  | ⟨0xF, _⟩ => 0xC00000000F
  | ⟨_ + 16, h⟩ => absurd h (by omega)

/-- The 40-bit word of a table row's bits: bits at `nbits` and above are 0 (the table numbers bits as R7 does). -/
def tableWord (nbits w : Nat) : Command := BitVec.ofNat 40 (w % 2 ^ nbits)

/-- The instruction the decoder reads from a word numbered as spec/opcode_table.json numbers it. -/
def decodeTableWord (nbits w : Nat) : Option Instr :=
  match decode (tableWord nbits w) with
  | .ok i => some i
  | .error _ => none

end Sys2Proof
end

