-- ==== Sys2Proof/Machine/State.lean ====
section
/-! DEFINITION. The state of one core instance (spec/10_state.md rule R20) beside the host's side of the interface (spec/20_memory.md
rule R46), and the reasons a step can stop. -/

namespace Sys2Proof.Machine

/-- What the host can do to the core; it can do nothing else (R46). -/
inductive HostAction where
  | command (w : Command)
  | readPort (p : Nat)
  | reset
  deriving DecidableEq, Repr

/-- What a port read hands the host: one whole register, at its own width (R35). -/
inductive PortValue where
  | r (val : Fixed17)
  | f (val : Bit)
  | x (val : Display)
  | e (val : BitVec 4)
  | v (val : Bit)
  | c1 (val : Count)
  | c11 (val : Count)
  | idx (val : Count)
  | status (val : BitVec 16)
  deriving DecidableEq, Repr

/-- The causes of a violation (R162). -/
inductive ViolationCause where
  | rsvNonzero
  | blockOverrun
  | blockIncomplete
  deriving DecidableEq, Repr

/-- The registers of R20, and the host's side: the actions it has still to perform and the values it has read.
DESIGN CHOICE (log entries 1 and 2; unsafe only for claims about the host): the last two fields are the model's own. -/
structure State where
  /-- R: the last Fixed17 arithmetic result (R21). -/
  r : Fixed17
  /-- F: the last comparator outcome (R22). -/
  f : Bit
  /-- X: the last sign-extended display value (R23). -/
  x : Display
  /-- E: {ed_ok, dc_ok, bc_ok, ab_ok} of the last classification (R24). -/
  e : BitVec 4
  /-- V: the last verdict, 1 = PASS (R25). -/
  v : Bit
  /-- C1: the running c1 of the current block (R26). -/
  c1 : Count
  /-- C11: the running c11 of the current block (R27). -/
  c11 : Count
  /-- IDX: bits of the current block consumed so far (R28). -/
  idx : Count
  /-- LAST: the previous bit (R29). -/
  last : Bit
  /-- FIRST: the next bit is the block's first (R30). -/
  first : Bit
  /-- VIOL: a contract violation has occurred since reset (R32). -/
  viol : Bit
  /-- VCAUSE: the cause code of the first violation since reset (R33). -/
  vcause : BitVec 2
  /-- The host's actions not yet performed, oldest first (R43, R46, R49). -/
  pending : List HostAction
  /-- The values port reads have handed the host, oldest first (R46). -/
  reads : List PortValue
  deriving DecidableEq, Repr

/-- Why a step stops with a fault: never. A breach of contract is recorded in VIOL and VCAUSE and the core goes on (R161,
R164), and `perform` is total (R58, R187), so nothing raises a fault (log entry 4, safe). -/
inductive Fault where
  deriving DecidableEq, Repr

/-- Why a step is refused. -/
inductive Refusal where
  /-- Raised by a dispatch arm whose instruction has no meaning yet; safe. No arm raises it now. -/
  | notModelled (mnemonic : String)
  /-- Raised by a read of a port numbered 9 or higher: "a model refuses a read of one" (R35); safe. -/
  | noSuchPort (p : Nat)
  deriving DecidableEq, Repr

/-- The machine right after reset: every register 0 except FIRST = 1 (R180). The host has nothing pending and has read
nothing. -/
def State.reset : State where
  r := 0x00000
  f := 0
  x := 0x00000000
  e := 0b0000
  v := 0
  c1 := 0
  c11 := 0
  idx := 0
  last := 0
  first := 1
  viol := 0
  vcause := 0b00
  pending := []
  reads := []

end Sys2Proof.Machine
end

