-- ==== Sys2Proof/Machine/Operands.lean ====
section
/-! DEFINITION. Operands that do not come whole from a command's field: the hard-wired boundary offsets, the counts widened to 17 bits,
and the bits of a byte in the order they are consumed. -/

namespace Sys2Proof.Machine

/-- K1 = 2303 (spec/41_polygon.md R110). -/
def k1 : Fixed17 := 0x008FF

/-- K2 = 4606 = 2*2303 (R110). -/
def k2 : Fixed17 := 0x011FE

/-- K4 = 9212 = 4*2303 (R110). -/
def k4 : Fixed17 := 0x023FC

/-- The number of bits that completes a block, as IDX holds it (spec/10_state.md R28, R31). -/
def fullBlock : Count := 2304

/-- The last IDX at which eight more bits fit, `2304 - 8` (spec/42_counter.md R133). -/
def lastByteStart : Count := 2296

/-- `zext_17`: a count presented to the classifier (spec/41_polygon.md R114, spec/00_scope.md R7). -/
def zext17 (c : Count) : Fixed17 := c.setWidth 17

/-- Bit i of a byte. -/
def byteBit (v : BitVec 8) (i : Nat) : Bit := v.extractLsb' i 1

/-- The bits of a byte operand, least significant first (spec/42_counter.md R133, spec/20_memory.md R41). -/
def byteBits (v : BitVec 8) : List Bit :=
  [byteBit v 0, byteBit v 1, byteBit v 2, byteBit v 3, byteBit v 4, byteBit v 5, byteBit v 6, byteBit v 7]

end Sys2Proof.Machine
end

