-- ==== Sys2Proof/Machine/Flags.lean ====
section
/-! DEFINITION. Every flag computation: the comparator's outcomes, the packing of E and V, DONE and STATUS. -/

namespace Sys2Proof.Machine

/-- LT17: bit 16 of the wrapped difference (spec/40_fixed17.md R80). -/
def lt17 (x y : Fixed17) : Bit := (sub17 x y).extractLsb' 16 1

/-- GT17: bit 16 of the wrapped difference is 0; true at equality (R81, spec/90_conflicts.md C3). -/
def gt17 (x y : Fixed17) : Bit := ~~~ (sub17 x y).extractLsb' 16 1

/-- The edge vector `{ed_ok, dc_ok, bc_ok, ab_ok}`, E[0] = ab_ok (spec/10_state.md R24). -/
def packEdges (ed dc bc ab : Bit) : BitVec 4 := (ed ++ dc ++ bc ++ ab : BitVec 4)

/-- The verdict: all four inequalities hold (spec/10_state.md R25, spec/41_polygon.md R111). -/
def verdict (ed dc bc ab : Bit) : Bit := ab &&& bc &&& dc &&& ed

/-- DONE: the current block has received all its bits (spec/10_state.md R31). -/
def done (s : State) : Bit := if s.idx = fullBlock then 1 else 0

/-- STATUS: bit 0 DONE, 1 VIOL, 3:2 VCAUSE, 4 FIRST, 5 LAST, 15:6 zero (spec/10_state.md R34). -/
def status (s : State) : BitVec 16 :=
  (0#10 ++ s.last ++ s.first ++ s.vcause ++ s.viol ++ done s : BitVec 16)

end Sys2Proof.Machine
end

