-- ==== Sys2Proof/Machine/Ops.lean ====
section
/-! DEFINITION. The named operations over the registers: each register has one writer, the violation procedure is one shared
operation, and a port read is one function. A return from a violation does not exist (spec/60_exceptions.md R167). -/

namespace Sys2Proof.Machine

/-- `R <- val`. -/
def writeR (val : Fixed17) (s : State) : State := { s with r := val }

/-- `F <- val`. -/
def writeF (val : Bit) (s : State) : State := { s with f := val }

/-- `X <- val`. -/
def writeX (val : Display) (s : State) : State := { s with x := val }

/-- `(E, V) <- ev`: E and V are always written together (spec/10_state.md R25). -/
def writeVerdict (ev : BitVec 4 × Bit) (s : State) : State := { s with e := ev.1, v := ev.2 }

/-- The counter registers at the start of a block (spec/42_counter.md R131). -/
def clearCounter (s : State) : State :=
  { s with c1 := 0, c11 := 0, idx := 0, last := 0, first := 1 }

/-- BITSTEP: consume one bit (spec/42_counter.md R130). -/
def bitStep (b : Bit) (s : State) : State :=
  let bitpair : BitVec 2 := b ++ s.last
  { s with
    c1 := if s.first = 0 ∧ b = 1 then s.c1 + 1 else s.c1
    c11 := if s.first = 0 ∧ bitpair = 0b11#2 then s.c11 + 1 else s.c11
    first := 0
    last := b
    idx := s.idx + 1 }

/-- Consume bits in order, the head first. -/
def bitSteps : List Bit → State → State
  | [], s => s
  | b :: bs, s => bitSteps bs (bitStep b s)

/-- The code VCAUSE records for a cause (spec/60_exceptions.md R162). -/
def causeCode : ViolationCause → BitVec 2
  | .rsvNonzero => 1
  | .blockOverrun => 2
  | .blockIncomplete => 3

/-- `raise Violation(code)`: the first cause is kept, VIOL is set, and no other register changes (spec/60_exceptions.md R161).
The core goes on: there is no trap (R167). -/
def raiseViolation (cause : ViolationCause) (s : State) : State :=
  { s with
    vcause := if s.viol = 0 then causeCode cause else s.vcause
    viol := 1 }

/-- The register a port drives, for ports 0 to 8; there is no other port (spec/10_state.md R35). -/
def portValue (p : Nat) (s : State) : Option PortValue :=
  match p with
  | 0 => some (.r s.r)
  | 1 => some (.f s.f)
  | 2 => some (.x s.x)
  | 3 => some (.e s.e)
  | 4 => some (.v s.v)
  | 5 => some (.c1 s.c1)
  | 6 => some (.c11 s.c11)
  | 7 => some (.idx s.idx)
  | 8 => some (.status (status s))
  | _ + 9 => none

/-- The host's list of pending actions. -/
def setPending (as : List HostAction) (s : State) : State := { s with pending := as }

/-- The host gets a value back, after those it already has. -/
def recordRead (val : PortValue) (s : State) : State := { s with reads := s.reads ++ [val] }

end Sys2Proof.Machine
end

