-- ==== Sys2Proof/Machine/Comparator.lean ====
section
/-! DEFINITION. The comparator's commands LT and GT (spec/40_fixed17.md R80, R81). The subtraction is internal: R is not written. -/

namespace Sys2Proof.Machine

/-- LT: `F <- SUB17(A, B)[16]` (R80). -/
def execLt (a b : Fixed17) (s : State) : Host.Outcome State Fault Refusal := .next (writeF (lt17 a b) s)

/-- GT: `F <- (SUB17(A, B)[16] == 0)` (R81). -/
def execGt (a b : Fixed17) (s : State) : Host.Outcome State Fault Refusal := .next (writeF (gt17 a b) s)

end Sys2Proof.Machine
end

