-- ==== Sys2Proof/Machine/Counter.lean ====
section
/-! DEFINITION. The bit-pair window counter's commands (spec/42_counter.md). -/

namespace Sys2Proof.Machine

/-- CNT_CLEAR: start a new block; VIOL and VCAUSE are kept (R131, spec/10_state.md R32). -/
def execCntClear (s : State) : Host.Outcome State Fault Refusal := .next (clearCounter s)

/-- CNT_BIT: feed one bit, or Violation(2) when the block is full (R132). -/
def execCntBit (b : Bit) (s : State) : Host.Outcome State Fault Refusal :=
  if s.idx = fullBlock then .next (raiseViolation .blockOverrun s) else .next (bitStep b s)

/-- CNT_BYTE: feed eight bits, least significant first, or Violation(2) and no bit at all when fewer than eight positions
remain (R133). -/
def execCntByte (v : BitVec 8) (s : State) : Host.Outcome State Fault Refusal :=
  if lastByteStart < s.idx then .next (raiseViolation .blockOverrun s) else .next (bitSteps (byteBits v) s)

end Sys2Proof.Machine
end

