-- ==== Sys2Proof/Machine/Fixed17.lean ====
section
/-! DEFINITION. The commands of the arithmetic unit: ADD, SUB, the five scalar multiplies and SEXT (spec/40_fixed17.md). None raises
anything, and none writes a flag (R160, spec/10_state.md R22). -/

namespace Sys2Proof.Machine

/-- ADD: `R <- ADD17(A, B)` (R73). -/
def execAdd (a b : Fixed17) (s : State) : Host.Outcome State Fault Refusal := .next (writeR (add17 a b) s)

/-- SUB: `R <- SUB17(A, B)` (R74). -/
def execSub (a b : Fixed17) (s : State) : Host.Outcome State Fault Refusal := .next (writeR (sub17 a b) s)

/-- MUL2: `R <- DBL(A)` (R75). -/
def execMul2 (a : Fixed17) (s : State) : Host.Outcome State Fault Refusal := .next (writeR (mul2_17 a) s)

/-- MUL5: `t4 <- DBLK(A, 2); R <- ADD17(A, t4)` (R76). -/
def execMul5 (a : Fixed17) (s : State) : Host.Outcome State Fault Refusal := .next (writeR (mul5_17 a) s)

/-- MUL10: `t8 <- DBLK(A, 3); t2 <- DBLK(A, 1); R <- ADD17(t8, t2)` (R77). -/
def execMul10 (a : Fixed17) (s : State) : Host.Outcome State Fault Refusal := .next (writeR (mul10_17 a) s)

/-- MUL15: `t16 <- DBLK(A, 4); R <- SUB17(t16, A)` (R78). -/
def execMul15 (a : Fixed17) (s : State) : Host.Outcome State Fault Refusal := .next (writeR (mul15_17 a) s)

/-- MUL20: `t16 <- DBLK(A, 4); t4 <- DBLK(A, 2); R <- ADD17(t16, t4)` (R79). -/
def execMul20 (a : Fixed17) (s : State) : Host.Outcome State Fault Refusal := .next (writeR (mul20_17 a) s)

/-- SEXT: `X <- SEXT32(A)`, with no effect on any Fixed17 register (R82). -/
def execSext (a : Fixed17) (s : State) : Host.Outcome State Fault Refusal := .next (writeX (sext32 a) s)

end Sys2Proof.Machine
end

