-- ==== Sys2Proof/Machine/Nop.lean ====
section
/-! DEFINITION. The no-operation command (spec/43_nop.md). -/

namespace Sys2Proof.Machine

/-- NOP: no register changes (R150). -/
def execNop (s : State) : Host.Outcome State Fault Refusal := .next s

end Sys2Proof.Machine
end

