-- ==== Sys2Proof/Machine/Polygon.lean ====
section
/-! DEFINITION. The polygon boundary-inequality evaluator (spec/41_polygon.md): the four edges, POLY, CLASSIFY and CNT_CLASSIFY. -/

namespace Sys2Proof.Machine

/-- Edge AB: `15*c11 < 20*c1 - 4*2303`, by lessThan (R111, R112). -/
def abOk (c1 c11 : Fixed17) : Bit := lt17 (mul15_17 c11) (sub17 (mul20_17 c1) k4)

/-- Edge BC: `15*c11 < 10*c1 + 2303`, by lessThan (R111, R112). -/
def bcOk (c1 c11 : Fixed17) : Bit := lt17 (mul15_17 c11) (add17 (mul10_17 c1) k1)

/-- Edge DC: `c11 > 2*c1 - 2303`, by greaterThan, which is true at equality (R111, R112). -/
def dcOk (c1 c11 : Fixed17) : Bit := gt17 c11 (sub17 (mul2_17 c1) k1)

/-- Edge ED: `5*c11 > 5*c1 - 2*2303`, by greaterThan, which is true at equality (R111, R112). -/
def edOk (c1 c11 : Fixed17) : Bit := gt17 (mul5_17 c11) (sub17 (mul5_17 c1) k2)

/-- POLY: the edge vector E and the verdict V of a pair of counts (R111). -/
def poly (c1 c11 : Fixed17) : BitVec 4 × Bit :=
  let ab := abOk c1 c11
  let bc := bcOk c1 c11
  let dc := dcOk c1 c11
  let ed := edOk c1 c11
  (packEdges ed dc bc ab, verdict ed dc bc ab)

/-- CLASSIFY: `(E, V) <- POLY(A, B)`, for every pair of 17-bit operands (R113, R119). -/
def execClassify (c1 c11 : Fixed17) (s : State) : Host.Outcome State Fault Refusal :=
  .next (writeVerdict (poly c1 c11) s)

/-- CNT_CLASSIFY: POLY of the counter's completed block, or Violation(3) while the block is incomplete (R114). -/
def execCntClassify (s : State) : Host.Outcome State Fault Refusal :=
  if done s = 0 then .next (raiseViolation .blockIncomplete s)
  else .next (writeVerdict (poly (zext17 s.c1) (zext17 s.c11)) s)

end Sys2Proof.Machine
end

