-- ==== Sys2Proof/Machine/Dispatch.lean ====
section
/-! DEFINITION. The dispatch of a decoded command to its meaning (spec/30_encoding.md R58). -/

namespace Sys2Proof.Machine

def exec (i : Instr) (s : State) : Host.Outcome State Fault Refusal :=
  match i with
  | .nop => Sys2Proof.Machine.execNop s
  | .add a b => Sys2Proof.Machine.execAdd a b s
  | .sub a b => Sys2Proof.Machine.execSub a b s
  | .mul2 a => Sys2Proof.Machine.execMul2 a s
  | .mul5 a => Sys2Proof.Machine.execMul5 a s
  | .mul10 a => Sys2Proof.Machine.execMul10 a s
  | .mul15 a => Sys2Proof.Machine.execMul15 a s
  | .mul20 a => Sys2Proof.Machine.execMul20 a s
  | .lt a b => Sys2Proof.Machine.execLt a b s
  | .gt a b => Sys2Proof.Machine.execGt a b s
  | .sext a => Sys2Proof.Machine.execSext a s
  | .classify c1 c11 => Sys2Proof.Machine.execClassify c1 c11 s
  | .cntClear => Sys2Proof.Machine.execCntClear s
  | .cntBit b => Sys2Proof.Machine.execCntBit b s
  | .cntByte v => Sys2Proof.Machine.execCntByte v s
  | .cntClassify => Sys2Proof.Machine.execCntClassify s

end Sys2Proof.Machine
end

