-- ==== Sys2Proof/Machine/HostPort.lean ====
section
/-! DEFINITION. What the core does with each of the host's actions (spec/20_memory.md R46): performing a command word, reading a port,
and reset. -/

namespace Sys2Proof.Machine

/-- A word whose reserved bits are not 0: Violation(1) and nothing else (spec/30_encoding.md R53). -/
def illegalWord (s : State) : Host.Outcome State Fault Refusal := .next (raiseViolation .rsvNonzero s)

/-- `perform(S, w)`: the RSV check, then the operation OP names (spec/30_encoding.md R58, spec/60_exceptions.md R163). -/
def perform (w : Command) (s : State) : Host.Outcome State Fault Refusal :=
  match decode w with
  | .ok i => exec i s
  | .error .rsvNonzero => illegalWord s

/-- A port read: no side effect on the core; the host gets the register's value. A port that does not exist is refused
(spec/10_state.md R35). -/
def readPort (p : Nat) (s : State) : Host.Outcome State Fault Refusal :=
  match portValue p s with
  | some val => .next (recordRead val s)
  | none => .refused (.noSuchPort p)

/-- Reset sets every register to its reset value (spec/70_reset_and_hazards.md R180). The host keeps its list and what it has
read. -/
def applyReset (s : State) : State :=
  { State.reset with pending := s.pending, reads := s.reads }

/-- One action of the host. -/
def performAction (a : HostAction) (s : State) : Host.Outcome State Fault Refusal :=
  match a with
  | .command w => perform w s
  | .readPort p => readPort p s
  | .reset => .next (applyReset s)

/-- Idling changes no state (spec/60_exceptions.md R172). DEDUCED for the end of the host's list (log entry 3). -/
def idle (s : State) : Host.Outcome State Fault Refusal := .next s

/-- Commands performed one at a time, in the order issued (spec/20_memory.md R43). -/
def performAll : List Command → State → Host.Outcome State Fault Refusal
  | [], s => .next s
  | w :: ws, s =>
    match perform w s with
    | .next t => performAll ws t
    | .fault reason => .fault reason
    | .refused reason => .refused reason

/-- The host adds commands to its list; this is how a program comes to run (log entry 1). -/
def issue (ws : List Command) (s : State) : State := setPending (s.pending ++ ws.map HostAction.command) s

end Sys2Proof.Machine
end

