-- ==== Sys2Proof/Machine/Step.lean ====
section
/-! DEFINITION. One step of the machine: the core performs the host's next action whole (spec/20_memory.md R42, R43, R46), or idles. -/

namespace Sys2Proof.Machine

/-- Perform the oldest pending action, which leaves the host's list; with none pending, idle. -/
def step (s : State) : Host.Outcome State Fault Refusal :=
  match s.pending with
  | [] => idle s
  | a :: rest => performAction a (setPending rest s)

/-- The state in which the very next step performs the table word `w`: it becomes the host's next action. -/
def State.withFetchWord (s : State) (nbits w : Nat) : State :=
  setPending (HostAction.command (tableWord nbits w) :: s.pending) s

end Sys2Proof.Machine
end

