-- ==== Sys2Proof/WellFormed.lean ====
section
/-! DEFINITION. What the host writes, and which of it is well formed: the assembler's commands, their operand counts and operand
ranges (spec/30_encoding.md rules R55, R56).

Every term of `Instr` is well formed by its type: the spec gives no command an operand value it forbids ("No other encoding
is illegal or reserved", R54). The checks of this file are those R55 calls assembly errors. -/

namespace Sys2Proof

/-- A line's characters. -/
abbrev Text := List Char

/-- A numeral as the host writes it: decimal, or hexadecimal with the number of digits written (R55). -/
inductive Numeral where
  | dec (n : Int)
  | hex (digits n : Nat)
  deriving DecidableEq, Repr

def Numeral.value : Numeral → Int
  | .dec n => n
  | .hex _ n => (n : Int)

/-- The sixteen mnemonics of R52 and the five pseudo-instructions of R56. -/
inductive Mnemonic where
  | nop | add | sub | mul2 | mul5 | mul10 | mul15 | mul20 | lt | gt | sext | classify
  | cntClear | cntBit | cntByte | cntClassify
  | mov | neg | ge | le | feedBytes
  deriving DecidableEq, Repr

/-- One assembler command: a mnemonic with operands, or the directive `.word` (R55). -/
inductive SourceCommand where
  | op (m : Mnemonic) (args : List Numeral)
  | word (n : Numeral)
  deriving DecidableEq, Repr

/-- The host's text: lines, each with an optional label and an optional command, and `repeat n` blocks (R55). -/
inductive SourceProgram where
  | done
  | label (name : Text) (rest : SourceProgram)
  | command (c : SourceCommand) (rest : SourceProgram)
  | repeated (n : Nat) (body rest : SourceProgram)
  deriving DecidableEq, Repr

/-- The kinds of operand of R55. -/
inductive OperandKind where
  | fixed17
  | bit
  | byte
  deriving DecidableEq, Repr

/-- How many operands a mnemonic takes, and of which kind. -/
inductive Signature where
  | exactly (ks : List OperandKind)
  | oneOrMore (k : OperandKind)
  deriving DecidableEq, Repr

def Mnemonic.signature : Mnemonic → Signature
  | .nop => .exactly []
  | .add => .exactly [.fixed17, .fixed17]
  | .sub => .exactly [.fixed17, .fixed17]
  | .mul2 => .exactly [.fixed17]
  | .mul5 => .exactly [.fixed17]
  | .mul10 => .exactly [.fixed17]
  | .mul15 => .exactly [.fixed17]
  | .mul20 => .exactly [.fixed17]
  | .lt => .exactly [.fixed17, .fixed17]
  | .gt => .exactly [.fixed17, .fixed17]
  | .sext => .exactly [.fixed17]
  | .classify => .exactly [.fixed17, .fixed17]
  | .cntClear => .exactly []
  | .cntBit => .exactly [.bit]
  | .cntByte => .exactly [.byte]
  | .cntClassify => .exactly []
  | .mov => .exactly [.fixed17]
  | .neg => .exactly [.fixed17]
  | .ge => .exactly [.fixed17, .fixed17]
  | .le => .exactly [.fixed17, .fixed17]
  | .feedBytes => .oneOrMore .byte

/-- A Fixed17 operand is a decimal in [-65536, 131071] or a hexadecimal number in [0x0, 0x1FFFF], the CNT_BIT operand is
`0` or `1`, and a byte is in [0, 255] or `0x00`..`0xFF` (R55). DESIGN CHOICE (log entry 10): the number of hexadecimal digits written
does not count here, so a byte may be `0xF` or `0x00F` as well as `0x0F`, and a CNT_BIT operand is decimal only. -/
def Numeral.inRange : OperandKind → Numeral → Bool
  | .fixed17, n => decide (-65536 ≤ n.value ∧ n.value ≤ 131071)
  | .bit, .dec n => decide (n = 0 ∨ n = 1)
  | .bit, .hex _ _ => false
  | .byte, n => decide (0 ≤ n.value ∧ n.value ≤ 255)

/-- "A command with the wrong number of operands is an assembly error" (R55). -/
def SourceCommand.countOk : SourceCommand → Bool
  | .op m args =>
    match m.signature with
    | .exactly ks => decide (args.length = ks.length)
    | .oneOrMore _ => !args.isEmpty
  | .word _ => true

/-- "Anything outside these ranges is an assembly error, not a wrapped value" (R55). -/
def SourceCommand.rangesOk : SourceCommand → Bool
  | .op m args =>
    match m.signature with
    | .exactly ks => (ks.zip args).all fun p => p.2.inRange p.1
    | .oneOrMore k => args.all fun n => n.inRange k
  | .word _ => true

/-- `.word` takes ten hexadecimal digits (R55, R50). -/
def SourceCommand.wordOk : SourceCommand → Bool
  | .op _ _ => true
  | .word (.hex digits n) => decide (digits = 10 ∧ n < 2 ^ 40)
  | .word (.dec _) => false

def SourceCommand.wellFormed (c : SourceCommand) : Bool := c.countOk && c.rangesOk && c.wordOk

def SourceProgram.wellFormed : SourceProgram → Bool
  | .done => true
  | .label _ rest => rest.wellFormed
  | .command c rest => c.wellFormed && rest.wellFormed
  | .repeated _ body rest => body.wellFormed && rest.wellFormed

end Sys2Proof
end

