-- ==== Sys2Proof/Machine/Assembler.lean ====
section
/-! DEFINITION. The assembler and the disassembler of spec/30_encoding.md rules R55 to R57. -/

namespace Sys2Proof.Machine

/-- A Fixed17 operand: n is encoded as `mask17(n)` (R51, R55). -/
def fixedOperand (n : Numeral) : Fixed17 := mask17 n.value

/-- A CNT_BIT operand, 0 or 1 (R55). -/
def bitNumeral (n : Numeral) : Bit := BitVec.ofInt 1 n.value

/-- A CNT_BYTE operand in [0, 255] (R55). -/
def byteNumeral (n : Numeral) : BitVec 8 := BitVec.ofInt 8 n.value

/-- The commands a mnemonic with operands stands for; the pseudo-instructions by their expansions (R52, R56). No other
number of operands assembles (R55). -/
def expandOp (m : Mnemonic) (args : List Numeral) : Option (List Instr) :=
  match m, args with
  | .nop, [] => some [.nop]
  | .add, [a, b] => some [.add (fixedOperand a) (fixedOperand b)]
  | .sub, [a, b] => some [.sub (fixedOperand a) (fixedOperand b)]
  | .mul2, [a] => some [.mul2 (fixedOperand a)]
  | .mul5, [a] => some [.mul5 (fixedOperand a)]
  | .mul10, [a] => some [.mul10 (fixedOperand a)]
  | .mul15, [a] => some [.mul15 (fixedOperand a)]
  | .mul20, [a] => some [.mul20 (fixedOperand a)]
  | .lt, [a, b] => some [.lt (fixedOperand a) (fixedOperand b)]
  | .gt, [a, b] => some [.gt (fixedOperand a) (fixedOperand b)]
  | .sext, [a] => some [.sext (fixedOperand a)]
  | .classify, [a, b] => some [.classify (fixedOperand a) (fixedOperand b)]
  | .cntClear, [] => some [.cntClear]
  | .cntBit, [b] => some [.cntBit (bitNumeral b)]
  | .cntByte, [v] => some [.cntByte (byteNumeral v)]
  | .cntClassify, [] => some [.cntClassify]
  | .mov, [a] => some [.add (fixedOperand a) 0]
  | .neg, [a] => some [.sub 0 (fixedOperand a)]
  | .ge, [a, b] => some [.gt (fixedOperand a) (fixedOperand b)]
  | .le, [a, b] => some [.gt (fixedOperand b) (fixedOperand a)]
  | .feedBytes, vs => some (vs.map fun v => .cntByte (byteNumeral v))
  | _, _ => none

/-- The words a well-formed command assembles to; an ill-formed one is an assembly error (R55). -/
def assemble (c : SourceCommand) : Option (List Command) :=
  if c.wellFormed then
    match c with
    | .op m args => (expandOp m args).map (List.map encode)
    | .word n => some [BitVec.ofInt 40 n.value]
  else none

/-- A list, n times over. -/
def repeatList {α : Type} : Nat → List α → List α
  | 0, _ => []
  | n + 1, l => l ++ repeatList n l

/-- The words of the host's text in order: labels emit nothing, and a `repeat` block emits its commands n times (R55). -/
def assembleProgram : SourceProgram → Option (List Command)
  | .done => some []
  | .label _ rest => assembleProgram rest
  | .command c rest =>
    match assemble c, assembleProgram rest with
    | some ws, some us => some (ws ++ us)
    | _, _ => none
  | .repeated n body rest =>
    match assembleProgram body, assembleProgram rest with
    | some ws, some us => some (repeatList n ws ++ us)
    | _, _ => none

/-! The text: characters to tokens to a `SourceProgram`. DESIGN CHOICE for white space, letter case of hexadecimal digits
and line structure (log entry 10). -/

/-- The tokens of the host's text. -/
inductive Token where
  | word (t : Text)
  | comma
  | colon
  | openBlock
  | closeBlock
  | newline
  deriving DecidableEq, Repr

/-- A character's role: part of a word, white space, a comment's start, or a token of its own. -/
inductive CharClass where
  | letter
  | blank
  | comment
  | single (t : Token)
  deriving DecidableEq, Repr

/-- The role of a character, by its code: 123 and 125 are the braces of `repeat` (R55). -/
def charClass (c : Char) : CharClass :=
  if c = ' ' ∨ c = '\t' ∨ c = '\r' then .blank
  else if c = '\n' then .single .newline
  else if c = ';' then .comment
  else if c = ',' then .single .comma
  else if c = ':' then .single .colon
  else if c.toNat = 123 then .single .openBlock
  else if c.toNat = 125 then .single .closeBlock
  else .letter

/-- The word read so far, if it has a character, before the tokens that follow. -/
def pushWord (acc : Text) (ts : List Token) : List Token :=
  if acc.isEmpty then ts else .word acc :: ts

/-- The tokens of a text, `acc` being the word read so far and `inComment` whether a `;` precedes on the line. -/
def tokensFrom : Bool → Text → Text → List Token
  | _, acc, [] => pushWord acc []
  | true, acc, c :: cs =>
    if charClass c = .single .newline then pushWord acc (.newline :: tokensFrom false [] cs) else tokensFrom true acc cs
  | false, acc, c :: cs =>
    match charClass c with
    | .letter => tokensFrom false (acc ++ [c]) cs
    | .blank => pushWord acc (tokensFrom false [] cs)
    | .comment => pushWord acc (tokensFrom true [] cs)
    | .single t => pushWord acc (t :: tokensFrom false [] cs)

def tokens (t : Text) : List Token := tokensFrom false [] t

/-- The value of a decimal digit. -/
def decDigit (c : Char) : Option Nat :=
  if 48 ≤ c.toNat ∧ c.toNat ≤ 57 then some (c.toNat - 48) else none

/-- The value of a hexadecimal digit, upper or lower case. -/
def hexDigitValue (c : Char) : Option Nat :=
  if 48 ≤ c.toNat ∧ c.toNat ≤ 57 then some (c.toNat - 48)
  else if 65 ≤ c.toNat ∧ c.toNat ≤ 70 then some (c.toNat - 55)
  else if 97 ≤ c.toNat ∧ c.toNat ≤ 102 then some (c.toNat - 87)
  else none

/-- The number a list of digits spells in a base, most significant first, after a prefix of value `n`. -/
def digitsValue (digit : Char → Option Nat) (base : Nat) : Nat → Text → Option Nat
  | n, [] => some n
  | n, c :: cs =>
    match digit c with
    | some d => digitsValue digit base (base * n + d) cs
    | none => none

/-- A numeral: `0x` and hexadecimal digits, or decimal digits with an optional minus (R55). DESIGN CHOICE (log entry 10): the minus
may stand before any decimal digits, so `-0` spells 0 wherever a numeral stands, and leading zeros are allowed. -/
def parseNumeral (t : Text) : Option Numeral :=
  match t with
  | '0' :: 'x' :: d :: ds => (digitsValue hexDigitValue 16 0 (d :: ds)).map (Numeral.hex (d :: ds).length)
  | '-' :: d :: ds => (digitsValue decDigit 10 0 (d :: ds)).map fun n => .dec (-(n : Int))
  | d :: ds => (digitsValue decDigit 10 0 (d :: ds)).map fun n => .dec (n : Int)
  | [] => none

/-- A mnemonic's spelling: upper case, as R52 and R56 have it. -/
def mnemonicText : Mnemonic → Text
  | .nop => ['N', 'O', 'P']
  | .add => ['A', 'D', 'D']
  | .sub => ['S', 'U', 'B']
  | .mul2 => ['M', 'U', 'L', '2']
  | .mul5 => ['M', 'U', 'L', '5']
  | .mul10 => ['M', 'U', 'L', '1', '0']
  | .mul15 => ['M', 'U', 'L', '1', '5']
  | .mul20 => ['M', 'U', 'L', '2', '0']
  | .lt => ['L', 'T']
  | .gt => ['G', 'T']
  | .sext => ['S', 'E', 'X', 'T']
  | .classify => ['C', 'L', 'A', 'S', 'S', 'I', 'F', 'Y']
  | .cntClear => ['C', 'N', 'T', '_', 'C', 'L', 'E', 'A', 'R']
  | .cntBit => ['C', 'N', 'T', '_', 'B', 'I', 'T']
  | .cntByte => ['C', 'N', 'T', '_', 'B', 'Y', 'T', 'E']
  | .cntClassify => ['C', 'N', 'T', '_', 'C', 'L', 'A', 'S', 'S', 'I', 'F', 'Y']
  | .mov => ['M', 'O', 'V']
  | .neg => ['N', 'E', 'G']
  | .ge => ['G', 'E']
  | .le => ['L', 'E']
  | .feedBytes => ['F', 'E', 'E', 'D', 'B', 'Y', 'T', 'E', 'S']

/-- The mnemonics in table order. -/
def allMnemonics : List Mnemonic :=
  [.nop, .add, .sub, .mul2, .mul5, .mul10, .mul15, .mul20, .lt, .gt, .sext, .classify, .cntClear, .cntBit, .cntByte,
    .cntClassify, .mov, .neg, .ge, .le, .feedBytes]

def parseMnemonic (t : Text) : Option Mnemonic := allMnemonics.find? fun m => decide (mnemonicText m = t)

/-- `.word` (R55). -/
def wordDirective : Text := ['.', 'w', 'o', 'r', 'd']

/-- `repeat` (R55). -/
def repeatKeyword : Text := ['r', 'e', 'p', 'e', 'a', 't']

/-- Numerals separated by commas: `a` or `a, b` or none (R55). -/
def parseArgs : List Token → Option (List Numeral)
  | [] => some []
  | [.word t] => (parseNumeral t).map fun n => [n]
  | .word t :: .comma :: .word u :: rest =>
    match parseNumeral t, parseArgs (.word u :: rest) with
    | some n, some ns => some (n :: ns)
    | _, _ => none
  | _ => none

/-- One command's tokens (R55). -/
def parseCommand (head : Text) (args : List Token) : Option SourceCommand :=
  if head = wordDirective then
    match parseArgs args with
    | some [n] => some (.word n)
    | _ => none
  else
    match parseMnemonic head, parseArgs args with
    | some m, some ns => some (.op m ns)
    | _, _ => none

/-- Whether a token may stand inside a command. -/
def commandToken : Token → Bool
  | .word _ => true
  | .comma => true
  | _ => false

/-- Lines up to the end of the text or the end of the enclosing block, and the tokens left, on `fuel` at least the number of
tokens (R55). A label is a word and a colon; a command ends at the end of its line or of its block. DESIGN CHOICE (log
entry 11): R55 gives no grammar for `repeat`; here a label or a command may follow its opening brace, and a label, a command
or another `repeat` its closing brace, on the same line. -/
def parseLines : Nat → List Token → Option (SourceProgram × List Token)
  | 0, ts => if ts.isEmpty then some (.done, []) else none
  | _ + 1, [] => some (.done, [])
  | fuel + 1, .newline :: ts => parseLines fuel ts
  | _ + 1, .closeBlock :: ts => some (.done, .closeBlock :: ts)
  | fuel + 1, .word t :: ts =>
    match ts with
    | .colon :: us => (parseLines fuel us).map fun p => (.label t p.1, p.2)
    | .word n :: .openBlock :: us =>
      if t = repeatKeyword then
        match parseNumeral n, parseLines fuel us with
        | some (.dec (.ofNat k)), some (body, .closeBlock :: vs) =>
          (parseLines fuel vs).map fun p => (.repeated k body p.1, p.2)
        | _, _ => none
      else none
    | us =>
      match parseCommand t (us.takeWhile commandToken), parseLines fuel (us.dropWhile commandToken) with
      | some c, some p => some (.command c p.1, p.2)
      | _, _ => none
  | _ + 1, _ => none

/-- The host's text as a program; none where the text is none (R55). -/
def parseProgram (t : Text) : Option SourceProgram :=
  match parseLines (tokens t).length (tokens t) with
  | some (p, []) => some p
  | _ => none

/-- The words the host's text assembles to; none for an assembly error (R55). -/
def assembleText (t : Text) : Option (List Command) :=
  match parseProgram t with
  | some p => assembleProgram p
  | none => none

/-- An upper-case hexadecimal digit. -/
def hexDigit (n : Nat) : Char := if n < 10 then Char.ofNat (48 + n) else Char.ofNat (55 + n)

/-- The low k hexadecimal digits of n, most significant first. -/
def hexDigits : Nat → Nat → Text
  | 0, _ => []
  | k + 1, n => hexDigits k (n / 16) ++ [hexDigit (n % 16)]

/-- `0x` and k digits. -/
def hexText (k n : Nat) : Text := '0' :: 'x' :: hexDigits k n

/-- A Fixed17 operand prints as five hexadecimal digits (R57). -/
def fixedText (v : Fixed17) : Text := hexText 5 v.toNat

/-- A mnemonic with one operand's text, or with two (R55). -/
def line1 (m : Mnemonic) (a : Text) : Text := mnemonicText m ++ ' ' :: a

def line2 (m : Mnemonic) (a b : Text) : Text := mnemonicText m ++ ' ' :: (a ++ ',' :: ' ' :: b)

/-- A command's text: its mnemonic and the operands it uses (R57). -/
def instrText : Instr → Text
  | .nop => mnemonicText .nop
  | .add a b => line2 .add (fixedText a) (fixedText b)
  | .sub a b => line2 .sub (fixedText a) (fixedText b)
  | .mul2 a => line1 .mul2 (fixedText a)
  | .mul5 a => line1 .mul5 (fixedText a)
  | .mul10 a => line1 .mul10 (fixedText a)
  | .mul15 a => line1 .mul15 (fixedText a)
  | .mul20 a => line1 .mul20 (fixedText a)
  | .lt a b => line2 .lt (fixedText a) (fixedText b)
  | .gt a b => line2 .gt (fixedText a) (fixedText b)
  | .sext a => line1 .sext (fixedText a)
  | .classify c1 c11 => line2 .classify (fixedText c1) (fixedText c11)
  | .cntClear => mnemonicText .cntClear
  | .cntBit b => line1 .cntBit (hexDigits 1 b.toNat)
  | .cntByte v => line1 .cntByte (hexText 2 v.toNat)
  | .cntClassify => mnemonicText .cntClassify

/-- ` ; illegal: RSV` (R57). -/
def illegalNote : Text := [' ', ';', ' ', 'i', 'l', 'l', 'e', 'g', 'a', 'l', ':', ' ', 'R', 'S', 'V']

/-- A word's text; a word with RSV != 0 prints as `.word` and its ten digits (R57). -/
def disassemble (w : Command) : Text :=
  match decode w with
  | .ok i => instrText i
  | .error .rsvNonzero => wordDirective ++ ' ' :: (hexText 10 w.toNat ++ illegalNote)

end Sys2Proof.Machine
end

