-- ==== Sys2Proof/Safety.lean ====
section
/-! DEFINITION. What claims are stated in: the faulted mark, the invariants of spec/10_state.md rules R25 and R37, reachable states, and
the integer readings the spec gives of its operations (spec/40_fixed17.md R72, R84; spec/41_polygon.md R111, R115;
spec/42_counter.md R134). None of these definitions is used by the machine. -/

namespace Sys2Proof.Safety

open Sys2Proof.Machine

/-- A faulted state: the host broke a contract the source places on it (spec/60_exceptions.md R165). -/
def Faulted (s : State) : Prop := s.viol = 1

/-- The range invariants of R37. -/
structure RangeInv (s : State) : Prop where
  idx_le : s.idx.toNat ≤ 2304
  first_iff : s.first = 1 ↔ s.idx = 0
  c11_le_c1 : s.c11.toNat ≤ s.c1.toNat
  c1_le : s.c1.toNat ≤ s.idx.toNat - 1
  no_cause : s.viol = 0 → s.vcause = 0
  some_cause : s.viol = 1 → s.vcause ≠ 0

/-- `V = E[0] and E[1] and E[2] and E[3]` (R25). -/
def VerdictInv (s : State) : Prop := s.v = 1 ↔ s.e = 0b1111

/-- The states the host's actions can reach from reset (R37, R46). -/
inductive Reachable : State → Prop where
  | reset : Reachable State.reset
  | act (a : HostAction) {s t : State} : Reachable s → performAction a s = .next t → Reachable t

/-- R72's closed form of DBLK: bit 16 is the OR of the top k+1 bits of x, bits 15..k are x[15-k:0], the low k bits are 0. -/
def chain (x : Fixed17) (k : Nat) : Nat :=
  (if x.toNat / 2 ^ (16 - k) = 0 then 0 else 65536) + (x.toNat * 2 ^ k) % 65536

/-- MISM(x, k): `x[16-k] == 0 and x[16:17-k] != 0` (R84). -/
def Mism (x : Fixed17) (k : Nat) : Prop := x.toNat / 2 ^ (16 - k) % 2 = 0 ∧ x.toNat / 2 ^ (17 - k) ≠ 0

/-- Bit 16 of the wrapped difference of two integers (R80). -/
def WrapsNegative (a b : Int) : Prop := 65536 ≤ (a - b) % 131072

/-- The four edges of R111 over the chains of R72, each comparison on the wrapped difference (R112). -/
def EdgeAB (c1 c11 : Fixed17) : Prop :=
  WrapsNegative ((chain c11 4 : Int) - c11.toNat) ((chain c1 4 : Int) + chain c1 2 - 9212)

def EdgeBC (c1 c11 : Fixed17) : Prop :=
  WrapsNegative ((chain c11 4 : Int) - c11.toNat) ((chain c1 3 : Int) + chain c1 1 + 2303)

def EdgeDC (c1 c11 : Fixed17) : Prop := ¬ WrapsNegative c11.toNat ((chain c1 1 : Int) - 2303)

def EdgeED (c1 c11 : Fixed17) : Prop :=
  ¬ WrapsNegative ((c11.toNat : Int) + chain c11 2) ((c1.toNat : Int) + chain c1 2 - 4606)

/-- What a classification of (c1, c11) leaves in E and V (R111). -/
structure Classified (c1 c11 : Fixed17) (t : State) : Prop where
  ab : t.e.getLsbD 0 = true ↔ EdgeAB c1 c11
  bc : t.e.getLsbD 1 = true ↔ EdgeBC c1 c11
  dc : t.e.getLsbD 2 = true ↔ EdgeDC c1 c11
  ed : t.e.getLsbD 3 = true ↔ EdgeED c1 c11
  verdict : t.v = 1 ↔ EdgeAB c1 c11 ∧ EdgeBC c1 c11 ∧ EdgeDC c1 c11 ∧ EdgeED c1 c11

/-- R115's integer predicate for PASS. -/
def InPolygon (c1 c11 : Nat) : Prop :=
  (15 * c11 : Int) < 20 * c1 - 9212 ∧ (15 * c11 : Int) < 10 * c1 + 2303 ∧
    (c11 : Int) ≥ 2 * c1 - 2303 ∧ (5 * c11 : Int) ≥ 5 * c1 - 4606

/-- R134's sums over the bits fed, the first bit excluded as the current bit. -/
def onesAfterFirst (bs : List Bit) : Nat := (bs.drop 1).countP fun b => b = 1

def pairsOfOnes (bs : List Bit) : Nat := (bs.zip (bs.drop 1)).countP fun p => p.1 = 1 ∧ p.2 = 1

/-- The counter as CNT_CLEAR and reset leave it (R131, R181). -/
def CounterClear (s : State) : Prop := s.c1 = 0 ∧ s.c11 = 0 ∧ s.idx = 0 ∧ s.last = 0 ∧ s.first = 1

/-- The bits a counter command feeds, in order (R132, R133); none for another command. -/
def fedBits : Instr → List Bit
  | .cntBit b => [b]
  | .cntByte v => (List.range 8).map fun i => v.extractLsb' i 1
  | .nop => []
  | .add _ _ => []
  | .sub _ _ => []
  | .mul2 _ => []
  | .mul5 _ => []
  | .mul10 _ => []
  | .mul15 _ => []
  | .mul20 _ => []
  | .lt _ _ => []
  | .gt _ _ => []
  | .sext _ => []
  | .classify _ _ => []
  | .cntClear => []
  | .cntClassify => []

/-- The bits a command word feeds, in order; none for an illegal word (R53). -/
def wordBits (w : Command) : List Bit :=
  match decode w with
  | .ok i => fedBits i
  | .error .rsvNonzero => []

/-- The commands of the arithmetic unit that write R (R21). -/
def writesR : Instr → Bool
  | .add _ _ => true
  | .sub _ _ => true
  | .mul2 _ => true
  | .mul5 _ => true
  | .mul10 _ => true
  | .mul15 _ => true
  | .mul20 _ => true
  | .nop => false
  | .lt _ _ => false
  | .gt _ _ => false
  | .sext _ => false
  | .classify _ _ => false
  | .cntClear => false
  | .cntBit _ => false
  | .cntByte _ => false
  | .cntClassify => false

/-- Whether a command raises a violation in a state, and which (R160, R162). -/
def raisedBy (i : Instr) (s : State) : Option ViolationCause :=
  match i with
  | .cntBit _ => if s.idx.toNat = 2304 then some .blockOverrun else none
  | .cntByte _ => if 2296 < s.idx.toNat then some .blockOverrun else none
  | .cntClassify => if s.idx.toNat = 2304 then none else some .blockIncomplete
  | .nop => none
  | .add _ _ => none
  | .sub _ _ => none
  | .mul2 _ => none
  | .mul5 _ => none
  | .mul10 _ => none
  | .mul15 _ => none
  | .mul20 _ => none
  | .lt _ _ => none
  | .gt _ _ => none
  | .sext _ => none
  | .classify _ _ => none
  | .cntClear => none

/-- A command leaves `val` in R and changes nothing else, from every state. -/
def LeavesR (i : Instr) (val : Fixed17) : Prop := ∀ s : State, exec i s = .next { s with r := val }

/-- A command leaves `val` in F and changes nothing else, from every state. -/
def LeavesF (i : Instr) (val : Bit) : Prop := ∀ s : State, exec i s = .next { s with f := val }

/-- A command leaves `val` in X and changes nothing else, from every state. -/
def LeavesX (i : Instr) (val : Display) : Prop := ∀ s : State, exec i s = .next { s with x := val }

/-- A command leaves `e` in E and `v` in V and changes nothing else, from every state. -/
def LeavesEV (i : Instr) (e : BitVec 4) (v : Bit) : Prop :=
  ∀ s : State, exec i s = .next { s with e := e, v := v }

/-- The state with the counter registers of `t` and everything else of `s`. -/
def withCounterOf (t s : State) : State :=
  { s with c1 := t.c1, c11 := t.c11, idx := t.idx, last := t.last, first := t.first }

/-- The state after `raise Violation(code)`, as R161 writes it. -/
def afterViolation (code : BitVec 2) (s : State) : State :=
  { s with viol := 1, vcause := if s.viol = 0 then code else s.vcause }

/-- The state with the violation record set by hand, for statements about what does not depend on it (R164). -/
def withRecord (viol : Bit) (vcause : BitVec 2) (s : State) : State := { s with viol := viol, vcause := vcause }

/-- The state with another host side, for statements about what does not depend on it (R5, R20). -/
def withHostSide (as : List HostAction) (rs : List PortValue) (s : State) : State :=
  { s with pending := as, reads := rs }

end Sys2Proof.Safety
end

