-- ==== Sys2Proof/Certificates/Slice0/Obligations.lean ====
section
/-! DEFINITION. The statements about the model, one per property, for the provers. Each follows numbered rules of spec/; a clause the
spec marks as derived is stated as a consequence to prove. -/

open Sys2Proof Sys2Proof.Machine Sys2Proof.Safety

/-! ### Encoding and decoding -/

/-- Decoding the canonical word of a command gives the command back, at every operand value (R50 to R52). -/
def Obligations.DecodeOfEncode : Prop := ∀ i : Instr, decode (encode i) = .ok i

/-- Encoding what a word decodes to gives the word with every ignored bit 0, and such a word's reserved bits are 0
(R51, R57). -/
def Obligations.EncodeOfDecodeClearsIgnoredBits : Prop :=
  ∀ (w : Command) (i : Instr), decode w = .ok i → encode i = w &&& usedBits w ∧ w.toNat < 2 ^ 38

/-- A word is illegal exactly when its bits 39:38 are not 0 (R53, R54). -/
def Obligations.OnlyReservedBitsAreIllegal : Prop :=
  ∀ w : Command, (decode w = .error .rsvNonzero ↔ 2 ^ 38 ≤ w.toNat) ∧ ((∃ i, decode w = .ok i) ↔ w.toNat < 2 ^ 38)

/-- The opcode map and the operand fields, by the table's match and mask (R50, R51, R52). -/
def Obligations.MatchedWordsDecodeToTheirRow : Prop :=
  ∀ w : Command,
    (w &&& 0xC00000000F = 0x0 → decode w = .ok .nop) ∧
    (w &&& 0xC00000000F = 0x1 → decode w = .ok (.add (w.extractLsb' 4 17) (w.extractLsb' 21 17))) ∧
    (w &&& 0xC00000000F = 0x2 → decode w = .ok (.sub (w.extractLsb' 4 17) (w.extractLsb' 21 17))) ∧
    (w &&& 0xC00000000F = 0x3 → decode w = .ok (.mul2 (w.extractLsb' 4 17))) ∧
    (w &&& 0xC00000000F = 0x4 → decode w = .ok (.mul5 (w.extractLsb' 4 17))) ∧
    (w &&& 0xC00000000F = 0x5 → decode w = .ok (.mul10 (w.extractLsb' 4 17))) ∧
    (w &&& 0xC00000000F = 0x6 → decode w = .ok (.mul15 (w.extractLsb' 4 17))) ∧
    (w &&& 0xC00000000F = 0x7 → decode w = .ok (.mul20 (w.extractLsb' 4 17))) ∧
    (w &&& 0xC00000000F = 0x8 → decode w = .ok (.lt (w.extractLsb' 4 17) (w.extractLsb' 21 17))) ∧
    (w &&& 0xC00000000F = 0x9 → decode w = .ok (.gt (w.extractLsb' 4 17) (w.extractLsb' 21 17))) ∧
    (w &&& 0xC00000000F = 0xA → decode w = .ok (.sext (w.extractLsb' 4 17))) ∧
    (w &&& 0xC00000000F = 0xB → decode w = .ok (.classify (w.extractLsb' 4 17) (w.extractLsb' 21 17))) ∧
    (w &&& 0xC00000000F = 0xC → decode w = .ok .cntClear) ∧
    (w &&& 0xC00000000F = 0xD → decode w = .ok (.cntBit (w.extractLsb' 4 1))) ∧
    (w &&& 0xC00000000F = 0xE → decode w = .ok (.cntByte (w.extractLsb' 4 8))) ∧
    (w &&& 0xC00000000F = 0xF → decode w = .ok .cntClassify)

/-- Words written out in the spec decode to the commands they stand for (V-ENC-1 to V-ENC-22). -/
def Obligations.WrittenWordsDecode : Prop :=
  decode 0x0000000000 = .ok .nop ∧
  decode 0x0000600051 = .ok (.add 5 3) ∧
  decode 0x0000A00032 = .ok (.sub 3 5) ∧
  decode 0x0000008FF5 = .ok (.mul10 2303) ∧
  decode 0x06C0821C08 = .ok (.lt 8640 13828) ∧
  decode 0x2000000009 = .ok (.gt 0 0x10000) ∧
  decode 0x00001FFFEA = .ok (.sext 0x1FFFE) ∧
  decode 0x0057205DCB = .ok (.classify 1500 697) ∧
  decode 0x0000000AAE = .ok (.cntByte 0xAA) ∧
  decode 0x3FFFFFFFED = .ok (.cntBit 0) ∧
  decode 0xFFFFFFFFED = .error .rsvNonzero

/-- Bits a command does not use have no effect: words that agree on the used bits are performed alike (R51, R54). -/
def Obligations.IgnoredBitsHaveNoEffect : Prop :=
  ∀ (w w' : Command) (s : State), w &&& usedBits w = w' &&& usedBits w → perform w s = perform w' s

/-! ### The host interface and the step -/

/-- A step with a command pending runs exactly the decoded command, on the state whose list has moved past it; an illegal
word records Violation(1) instead (R43, R46, R53). That the host's commands are a list in State is the model's choice (log
entry 1). -/
def Obligations.StepRunsDecodedCommand : Prop :=
  ∀ (s : State) (w : Command) (rest : List HostAction), s.pending = .command w :: rest →
    (∀ i, decode w = .ok i → step s = exec i { s with pending := rest }) ∧
    (decode w = .error .rsvNonzero → step s = .next (afterViolation 1 { s with pending := rest }))

/-- The word withFetchWord places is the one the next step performs; withFetchWord stands for the host issuing a command
(log entries 1 and 13). -/
def Obligations.FetchWordRunsNext : Prop :=
  ∀ (s : State) (w : Nat) (i : Instr), decode (BitVec.ofNat 40 w) = .ok i →
    step (s.withFetchWord 40 w) = exec i s ∧ decodeTableWord 40 w = some i

/-- Port reads return one whole register, record nothing in the core, and a port numbered 9 or higher is refused (R35).
That the values read are a list in State is the model's choice (log entry 2). -/
def Obligations.PortReadsReturnTheRegister : Prop :=
  ∀ (s : State) (p : Nat) (rest : List HostAction), s.pending = .readPort p :: rest →
    (∀ val, (p = 0 ∧ val = .r s.r ∨ p = 1 ∧ val = .f s.f ∨ p = 2 ∧ val = .x s.x ∨ p = 3 ∧ val = .e s.e ∨
        p = 4 ∧ val = .v s.v ∨ p = 5 ∧ val = .c1 s.c1 ∨ p = 6 ∧ val = .c11 s.c11 ∨ p = 7 ∧ val = .idx s.idx ∨
        p = 8 ∧ val = .status (status s)) →
      step s = .next { s with pending := rest, reads := s.reads ++ [val] }) ∧
    (9 ≤ p → step s = .refused (.noSuchPort p))

/-- STATUS bit by bit, DONE included (R31, R34). -/
def Obligations.StatusFields : Prop :=
  ∀ s : State,
    ((status s).getLsbD 0 = true ↔ s.idx.toNat = 2304) ∧
    ((status s).getLsbD 1 = true ↔ s.viol = 1) ∧
    (status s).extractLsb' 2 2 = s.vcause ∧
    ((status s).getLsbD 4 = true ↔ s.first = 1) ∧
    ((status s).getLsbD 5 = true ↔ s.last = 1) ∧
    (status s).extractLsb' 6 10 = 0

/-- Reset sets every register to its reset value from any state; DONE is then 0 and STATUS 0x0010. The state right after
reset is those values (R180). -/
def Obligations.ResetSetsEveryRegister : Prop :=
  (∀ s : State, ∃ t, performAction .reset s = .next t ∧ t.r = 0 ∧ t.f = 0 ∧ t.x = 0 ∧ t.e = 0 ∧ t.v = 0 ∧ t.c1 = 0 ∧
    t.c11 = 0 ∧ t.idx = 0 ∧ t.last = 0 ∧ t.first = 1 ∧ t.viol = 0 ∧ t.vcause = 0 ∧ done t = 0 ∧ status t = 0x0010) ∧
  (State.reset.r = 0 ∧ State.reset.f = 0 ∧ State.reset.x = 0 ∧ State.reset.e = 0 ∧ State.reset.v = 0 ∧
    State.reset.c1 = 0 ∧ State.reset.c11 = 0 ∧ State.reset.idx = 0 ∧ State.reset.last = 0 ∧ State.reset.first = 1 ∧
    State.reset.viol = 0 ∧ State.reset.vcause = 0 ∧ status State.reset = 0x0010)

/-- A step with a reset pending resets the core; what the host has still to do and has read stays, which is the model's
choice (log entries 1, 2; R46, R180). -/
def Obligations.StepWithResetPending : Prop :=
  ∀ (s : State) (rest : List HostAction), s.pending = .reset :: rest →
    step s = .next { State.reset with pending := rest, reads := s.reads }

/-- After reset the counter is as CNT_CLEAR leaves it, and CNT_CLEAR changes nothing at all in a state whose counter is so
(R131, R181). -/
def Obligations.ClearAfterResetChangesNothing : Prop :=
  CounterClear State.reset ∧
  (∀ s : State, CounterClear s → exec .cntClear s = .next s) ∧
  ∀ s t : State, exec .cntClear s = .next t → CounterClear t

/-- The core never gets stuck and never faults: every step answers a next state, but for a read of a port that does not
exist (R35, R46, R187). -/
def Obligations.StepAnswersNextUnlessNoSuchPort : Prop :=
  ∀ s : State, (∃ t, step s = .next t) ∨
    ∃ p rest, 9 ≤ p ∧ s.pending = .readPort p :: rest ∧ step s = .refused (.noSuchPort p)

/-- Commands in the host's list are performed one at a time in the order issued, each on the state the one before left
(R43). -/
def Obligations.StepsPerformCommandsInOrder : Prop :=
  ∀ (ws : List Command) (rest : List HostAction) (s : State),
    Host.Core.run Sys2Proof.core ws.length (setPending (ws.map HostAction.command ++ rest) s) =
      performAll ws (setPending rest s)

/-- With no action pending a step changes nothing (R172; log entry 3 for the end of the host's list). -/
def Obligations.IdleChangesNothing : Prop := ∀ s : State, s.pending = [] → step s = .next s

/-- perform is total, never blocks, and is the RSV check followed by the operation OP selects (R58). -/
def Obligations.PerformIsTotal : Prop :=
  ∀ (w : Command) (s : State),
    (∃ t, perform w s = .next t) ∧
    (2 ^ 38 ≤ w.toNat → perform w s = .next (afterViolation 1 s)) ∧
    (w.toNat < 2 ^ 38 → perform w s = exec (decodeOp w) s)

/-- What a command does to the core does not depend on the host's list or on what was read, and it changes neither
(R5, R20). -/
def Obligations.CommandsIgnoreTheHostSide : Prop :=
  ∀ (i : Instr) (s t : State) (as : List HostAction) (rs : List PortValue), exec i s = .next t →
    t.pending = s.pending ∧ t.reads = s.reads ∧ exec i (withHostSide as rs s) = .next (withHostSide as rs t)

/-! ### The arithmetic unit -/

/-- ADD: the sum modulo 2^17 in R, nothing else changed (R73). -/
def Obligations.AddWritesSumModulo : Prop :=
  (∀ (a b : Fixed17) (s : State), exec (.add a b) s = .next { s with r := mask17 (a.toNat + b.toNat) }) ∧
  (∀ a b : Fixed17, mask17 (a.toNat + b.toNat) = mask17 (s17 a + s17 b)) ∧
  (∀ (w : Command) (s : State), w &&& 0xC00000000F = 0x1 →
    perform w s = exec (.add (w.extractLsb' 4 17) (w.extractLsb' 21 17)) s) ∧
  LeavesR (.add 0x0FFFF 0x00001) 0x10000 ∧ LeavesR (.add 0x1FFFF 0x00001) 0x00000 ∧
  LeavesR (.add 0x10000 0x10000) 0x00000 ∧ LeavesR (.add 0x1FFFF 0x1FFFF) 0x1FFFE ∧
  (∀ x : Fixed17, LeavesR (.add x 0) x) ∧
  ∀ s : State, perform 0x0000600051 s = .next { s with r := 0x00008 }

/-- SUB: the difference modulo 2^17 in R, nothing else changed (R74). -/
def Obligations.SubWritesDifferenceModulo : Prop :=
  (∀ (a b : Fixed17) (s : State), exec (.sub a b) s = .next { s with r := mask17 ((a.toNat : Int) - b.toNat) }) ∧
  (∀ a b : Fixed17, mask17 ((a.toNat : Int) - b.toNat) = mask17 (s17 a - s17 b)) ∧
  (∀ (w : Command) (s : State), w &&& 0xC00000000F = 0x2 →
    perform w s = exec (.sub (w.extractLsb' 4 17) (w.extractLsb' 21 17)) s) ∧
  LeavesR (.sub 3 5) 0x1FFFE ∧ LeavesR (.sub 0 0x10000) 0x10000 ∧ LeavesR (.sub 0x10000 1) 0x0FFFF ∧
  (∀ x : Fixed17, LeavesR (.sub x x) 0) ∧ LeavesR (.sub 0 1) 0x1FFFF ∧
  ∀ s : State, perform 0x0000A00032 s = .next { s with r := 0x1FFFE }

/-- DBLK: the chain of sign-aware doubles has R72's closed form for k = 0 to 4; one double is R71's two arms. -/
def Obligations.DoubleChainClosedForm : Prop :=
  (∀ x : Fixed17, (x.getLsbD 16 = false → dbl x = mask17 (2 * x.toNat)) ∧
    (x.getLsbD 16 = true → (dbl x).toNat = 65536 + 2 * x.toNat % 65536)) ∧
  (∀ x : Fixed17, dblk x 0 = x) ∧ (∀ (x : Fixed17) (k : Nat), dblk x (k + 1) = dbl (dblk x k)) ∧
  ∀ (x : Fixed17) (k : Nat), k ≤ 4 → (dblk x k).toNat = chain x k

/-- MUL2: the sign-aware double in R, nothing else changed (R75). -/
def Obligations.Mul2WritesDouble : Prop :=
  (∀ (a : Fixed17) (s : State), exec (.mul2 a) s = .next { s with r := mask17 (chain a 1) }) ∧
  (∀ (w : Command) (s : State), w &&& 0xC00000000F = 0x3 → perform w s = exec (.mul2 (w.extractLsb' 4 17)) s) ∧
  LeavesR (.mul2 0x0FFFF) 0x1FFFE ∧ LeavesR (.mul2 0x08000) 0x10000 ∧ LeavesR (.mul2 0x1FFFF) 0x1FFFE ∧
  LeavesR (.mul2 0x18000) 0x10000 ∧ LeavesR (.mul2 0x17FFF) 0x1FFFE ∧ LeavesR (.mul2 0x10000) 0x10000 ∧
  LeavesR (.mul2 0x10001) 0x10002 ∧
  ∀ s : State, perform 0x0000008FF3 s = .next { s with r := 0x011FE }

/-- MUL5: x plus x doubled twice in R, nothing else changed (R76). -/
def Obligations.Mul5WritesSum : Prop :=
  (∀ (a : Fixed17) (s : State), exec (.mul5 a) s = .next { s with r := mask17 (a.toNat + chain a 2) }) ∧
  (∀ (w : Command) (s : State), w &&& 0xC00000000F = 0x4 → perform w s = exec (.mul5 (w.extractLsb' 4 17)) s) ∧
  LeavesR (.mul5 0x08000) 0x18000 ∧ LeavesR (.mul5 0x18000) 0x08000 ∧ LeavesR (.mul5 0x10000) 0x00000 ∧
  LeavesR (.mul5 0x0FFFF) 0x0FFFB ∧ LeavesR (.mul5 0x1FFFF) 0x1FFFB ∧ LeavesR (.mul5 0x17FFF) 0x17FFB ∧
  ∀ s : State, perform 0x0000008FF4 s = .next { s with r := 0x02CFB }

/-- MUL10: x doubled three times plus x doubled once in R, nothing else changed (R77). -/
def Obligations.Mul10WritesSum : Prop :=
  (∀ (a : Fixed17) (s : State), exec (.mul10 a) s = .next { s with r := mask17 (chain a 3 + chain a 1) }) ∧
  (∀ (w : Command) (s : State), w &&& 0xC00000000F = 0x5 → perform w s = exec (.mul10 (w.extractLsb' 4 17)) s) ∧
  LeavesR (.mul10 0x08000) 0x00000 ∧ LeavesR (.mul10 0x04000) 0x18000 ∧ LeavesR (.mul10 0x0C000) 0x08000 ∧
  LeavesR (.mul10 0x10000) 0x00000 ∧ LeavesR (.mul10 0x1FFFF) 0x1FFF6 ∧
  ∀ s : State, perform 0x0000008FF5 s = .next { s with r := 0x059F6 }

/-- MUL15: x doubled four times less x in R, nothing else changed (R78). -/
def Obligations.Mul15WritesDifference : Prop :=
  (∀ (a : Fixed17) (s : State), exec (.mul15 a) s = .next { s with r := mask17 ((chain a 4 : Int) - a.toNat) }) ∧
  (∀ (w : Command) (s : State), w &&& 0xC00000000F = 0x6 → perform w s = exec (.mul15 (w.extractLsb' 4 17)) s) ∧
  LeavesR (.mul15 0x02000) 0x0E000 ∧ LeavesR (.mul15 0x08000) 0x08000 ∧ LeavesR (.mul15 0x10000) 0x00000 ∧
  LeavesR (.mul15 0x01000) 0x0F000 ∧ LeavesR (.mul15 0x1FFFF) 0x1FFF1 ∧
  ∀ s : State, perform 0x0000008FF6 s = .next { s with r := 0x086F1 }

/-- MUL20: x doubled four times plus x doubled twice in R, nothing else changed (R79). -/
def Obligations.Mul20WritesSum : Prop :=
  (∀ (a : Fixed17) (s : State), exec (.mul20 a) s = .next { s with r := mask17 (chain a 4 + chain a 2) }) ∧
  (∀ (w : Command) (s : State), w &&& 0xC00000000F = 0x7 → perform w s = exec (.mul20 (w.extractLsb' 4 17)) s) ∧
  LeavesR (.mul20 0x02000) 0x18000 ∧ LeavesR (.mul20 0x04000) 0x00000 ∧ LeavesR (.mul20 0x0C000) 0x00000 ∧
  LeavesR (.mul20 0x08000) 0x00000 ∧ LeavesR (.mul20 0x00FFF) 0x13FEC ∧ LeavesR (.mul20 0x1FFFF) 0x1FFEC ∧
  ∀ s : State, perform 0x0000008FF7 s = .next { s with r := 0x0B3EC }

/-- SEXT: the sign extension to 32 bits in X, nothing else changed (R82). -/
def Obligations.SextWritesSignExtension : Prop :=
  (∀ (a : Fixed17) (s : State), exec (.sext a) s = .next { s with x := BitVec.ofInt 32 (s17 a) }) ∧
  (∀ a : Fixed17, BitVec.ofInt 32 (s17 a) =
    if a.getLsbD 16 then BitVec.ofNat 32 a.toNat ||| 0xFFFE0000 else BitVec.ofNat 32 a.toNat) ∧
  (∀ (w : Command) (s : State), w &&& 0xC00000000F = 0xA → perform w s = exec (.sext (w.extractLsb' 4 17)) s) ∧
  LeavesX (.sext 0x10000) 0xFFFF0000 ∧ LeavesX (.sext 0x1FFFF) 0xFFFFFFFF ∧ LeavesX (.sext 0x0FFFF) 0x0000FFFF ∧
  LeavesX (.sext 0) 0 ∧
  ∀ s : State, perform 0x00001FFFEA s = .next { s with x := 0xFFFFFFFE }

/-- The laws of add and sub, and where a sum of signed values is exact (R83). -/
def Obligations.AddSubLaws : Prop :=
  ∀ x y z : Fixed17,
    add17 x 0 = x ∧ sub17 x x = 0 ∧ add17 x y = add17 y x ∧ add17 (add17 x y) z = add17 x (add17 y z) ∧
    sub17 (add17 x y) y = x ∧
    (s17 (add17 x y) = s17 x + s17 y ↔ -65536 ≤ s17 x + s17 y ∧ s17 x + s17 y ≤ 65535) ∧
    (s17 x + s17 y < -65536 → s17 (add17 x y) = s17 x + s17 y + 131072) ∧
    (65535 < s17 x + s17 y → s17 (add17 x y) = s17 x + s17 y - 131072)

/-- A chain equals the modular product exactly when MISM does not hold, and is off by 2^16 when it does; for k = 1 MISM is
the range 0x10000..0x17FFF, so MUL2 is exact from -32768 up (R84). -/
def Obligations.ChainIsModularUnlessMismatch : Prop :=
  (∀ (x : Fixed17) (k : Nat), k ≤ 4 →
    (dblk x k = mask17 (2 ^ k * x.toNat) ↔ ¬ Mism x k) ∧
    (Mism x k → dblk x k = mask17 (2 ^ k * x.toNat + 65536))) ∧
  (∀ x : Fixed17, Mism x 1 ↔ 0x10000 ≤ x.toNat ∧ x.toNat ≤ 0x17FFF) ∧
  ∀ x : Fixed17, -32768 ≤ s17 x → mul2_17 x = mask17 (2 * x.toNat)

/-- Where each scalar multiply equals the product modulo 2^17 (R85's second and fourth columns, and R87's signed
reading). -/
def Obligations.MultipliesEqualProductExactlyWhen : Prop :=
  ∀ x : Fixed17,
    (mul2_17 x = mask17 (2 * x.toNat) ↔ ¬ Mism x 1) ∧
    (mul5_17 x = mask17 (5 * x.toNat) ↔ ¬ Mism x 2) ∧
    (mul10_17 x = mask17 (10 * x.toNat) ↔ (Mism x 3 ↔ Mism x 1)) ∧
    (mul15_17 x = mask17 (15 * x.toNat) ↔ ¬ Mism x 4) ∧
    (mul20_17 x = mask17 (20 * x.toNat) ↔ (Mism x 4 ↔ Mism x 2)) ∧
    (-32768 ≤ s17 x → mul2_17 x = mask17 (2 * s17 x)) ∧
    (-16384 ≤ s17 x ∧ s17 x ≤ 16383 → mul5_17 x = mask17 (5 * s17 x)) ∧
    (-8192 ≤ s17 x ∧ s17 x ≤ 8191 → mul10_17 x = mask17 (10 * s17 x)) ∧
    (-4096 ≤ s17 x ∧ s17 x ≤ 4095 → mul15_17 x = mask17 (15 * s17 x) ∧ mul20_17 x = mask17 (20 * s17 x))

/-! ### The comparator -/

/-- LT: F is bit 16 of the wrapped difference, nothing else changed (R80). -/
def Obligations.LtWritesSignOfDifference : Prop :=
  (∀ (a b : Fixed17) (s : State), WrapsNegative a.toNat b.toNat → exec (.lt a b) s = .next { s with f := 1 }) ∧
  (∀ (a b : Fixed17) (s : State), ¬ WrapsNegative a.toNat b.toNat → exec (.lt a b) s = .next { s with f := 0 }) ∧
  (∀ (w : Command) (s : State), w &&& 0xC00000000F = 0x8 →
    perform w s = exec (.lt (w.extractLsb' 4 17) (w.extractLsb' 21 17)) s) ∧
  (∀ x : Fixed17, LeavesF (.lt x x) 0) ∧ LeavesF (.lt 0x0FFFF 0x10000) 1 ∧ LeavesF (.lt 0x10000 0) 1 ∧
  LeavesF (.lt 0 0x10000) 1 ∧ LeavesF (.lt 0x08000 0x18000) 1 ∧
  ∀ s : State, perform 0x06C0821C08 s = .next { s with f := 1 }

/-- GT: F is the complement of bit 16 of the wrapped difference, nothing else changed; at equality it is 1 (R81). -/
def Obligations.GtWritesComplementOfSign : Prop :=
  (∀ (a b : Fixed17) (s : State), WrapsNegative a.toNat b.toNat → exec (.gt a b) s = .next { s with f := 0 }) ∧
  (∀ (a b : Fixed17) (s : State), ¬ WrapsNegative a.toNat b.toNat → exec (.gt a b) s = .next { s with f := 1 }) ∧
  (∀ (w : Command) (s : State), w &&& 0xC00000000F = 0x9 →
    perform w s = exec (.gt (w.extractLsb' 4 17) (w.extractLsb' 21 17)) s) ∧
  (∀ x : Fixed17, LeavesF (.gt x x) 1) ∧ LeavesF (.gt 0 0x10000) 0 ∧ LeavesF (.gt 0x10000 0x0FFFF) 1 ∧
  ∀ s : State, perform 0x2000000009 s = .next { s with f := 0 }

/-- The comparator's laws (R86, laws (a) to (e)). -/
def Obligations.ComparatorLaws : Prop :=
  ∀ x y : Fixed17,
    (lt17 x y = 1 ↔ gt17 x y = 0) ∧
    (lt17 x x = 0 ∧ gt17 x x = 1) ∧
    (-65536 ≤ s17 x - s17 y ∧ s17 x - s17 y ≤ 65535 → (lt17 x y = 1 ↔ s17 x < s17 y) ∧ (gt17 x y = 1 ↔ s17 x ≥ s17 y)) ∧
    (-32768 ≤ s17 x ∧ s17 x ≤ 32767 ∧ -32768 ≤ s17 y ∧ s17 y ≤ 32767 ∨ x.getLsbD 16 = y.getLsbD 16 →
      -65536 ≤ s17 x - s17 y ∧ s17 x - s17 y ≤ 65535) ∧
    (lt17 x y = gt17 y x ↔ sub17 x y ≠ 0x00000 ∧ sub17 x y ≠ 0x10000) ∧
    (sub17 x y = 0x00000 → lt17 x y = 0 ∧ gt17 y x = 1) ∧
    (sub17 x y = 0x10000 → lt17 x y = 1 ∧ gt17 y x = 0) ∧
    (x = y → gt17 x y = 1)

/-! ### The polygon -/

/-- CLASSIFY: E and V are POLY of the operands, for every pair of 17-bit operands, with no violation and nothing else
changed (R111, R112, R113, R119). -/
def Obligations.ClassifyWritesPoly : Prop :=
  (∀ (c1 c11 : Fixed17) (s : State),
    ∃ t, exec (.classify c1 c11) s = .next t ∧ Classified c1 c11 t ∧ t = { s with e := t.e, v := t.v }) ∧
  (∀ (c1 c11 : Fixed17) (s s' t t' : State),
    exec (.classify c1 c11) s = .next t → exec (.classify c1 c11) s' = .next t' → t.e = t'.e ∧ t.v = t'.v) ∧
  (∀ (w : Command) (s : State), w &&& 0xC00000000F = 0xB →
    perform w s = exec (.classify (w.extractLsb' 4 17) (w.extractLsb' 21 17)) s) ∧
  LeavesEV (.classify 0 0) 0b1110 0 ∧ LeavesEV (.classify 1500 697) 0b1111 1 ∧
  LeavesEV (.classify 1500 696) 0b1011 0 ∧ LeavesEV (.classify 0 2303) 0b1100 0 ∧
  LeavesEV (.classify 0x1FFFF 0x1FFFF) 0b1110 0 ∧
  ∀ s : State, perform 0x004800480B s = .next { s with e := 0b1111, v := 1 }

/-- CNT_CLASSIFY: POLY of the counts when the block is complete, Violation(3) otherwise; classifying again changes nothing
more, after CNT_CLEAR it raises Violation(3), and a block of 288 bytes 0xFF gives E = 0b1101, V = 0, C1 = C11 = 2303 (R114). -/
def Obligations.CntClassifyNeedsACompleteBlock : Prop :=
  (∀ s : State, s.idx.toNat = 2304 →
    ∃ t, exec .cntClassify s = .next t ∧ Classified (BitVec.ofNat 17 s.c1.toNat) (BitVec.ofNat 17 s.c11.toNat) t ∧
      t = { s with e := t.e, v := t.v } ∧ exec .cntClassify t = .next t) ∧
  (∀ s : State, s.idx.toNat ≠ 2304 → exec .cntClassify s = .next (afterViolation 3 s)) ∧
  (∀ s t : State, exec .cntClear s = .next t → exec .cntClassify t = .next (afterViolation 3 t)) ∧
  (∀ (w : Command) (s : State), w &&& 0xC00000000F = 0xF → perform w s = exec .cntClassify s) ∧
  (∀ s : State, s.idx.toNat = 2304 → s.c1.toNat = 2303 → s.c11.toNat = 2303 →
    exec .cntClassify s = .next { s with e := 0b1101, v := 0 }) ∧
  ∃ t, performAll (List.replicate 288 0x0000000FFE ++ [0x000000000F]) State.reset = .next t ∧
    t.e = 0b1101 ∧ t.v = 0 ∧ t.c1 = 2303 ∧ t.c11 = 2303

/-- For counts in [0, 3737], and for every pair up to 3738 but (3738, 0), POLY is the integer predicate; at (3738, 0) E is
0b0010 (R115). -/
def Obligations.PolyIsIntegerPredicate : Prop :=
  (∀ c1 c11 : Nat, c1 ≤ 3738 → c11 ≤ 3738 → ¬ (c1 = 3738 ∧ c11 = 0) → ∀ s : State,
    ∃ t, exec (.classify (BitVec.ofNat 17 c1) (BitVec.ofNat 17 c11)) s = .next t ∧
      (t.e.getLsbD 0 = true ↔ (15 * c11 : Int) < 20 * c1 - 9212) ∧
      (t.e.getLsbD 1 = true ↔ (15 * c11 : Int) < 10 * c1 + 2303) ∧
      (t.e.getLsbD 2 = true ↔ (c11 : Int) ≥ 2 * c1 - 2303) ∧
      (t.e.getLsbD 3 = true ↔ (5 * c11 : Int) ≥ 5 * c1 - 4606) ∧
      (t.e.getLsbD 3 = true ↔ (c1 : Int) - c11 ≤ 921) ∧
      (t.v = 1 ↔ InPolygon c1 c11)) ∧
  LeavesEV (.classify 3738 0) 0b0010 0 ∧ ¬ InPolygon 3738 0

/-- On integers only edge DC can be met with equality; so reading the four comparisons as strict changes the verdict only on
the line c11 = 2*c1 - 2303, on which dc_ok is 1 (R116). -/
def Obligations.OnlyEdgeDcMeetsEquality : Prop :=
  (∀ c1 c11 : Int, 15 * c11 ≠ 20 * c1 - 9212 ∧ 15 * c11 ≠ 10 * c1 + 2303 ∧ 5 * c11 ≠ 5 * c1 - 4606) ∧
  ∀ c1 c11 : Nat, c1 ≤ 3737 → c11 ≤ 3737 → ∀ s : State,
    ∃ t, exec (.classify (BitVec.ofNat 17 c1) (BitVec.ofNat 17 c11)) s = .next t ∧
      ((c11 : Int) = 2 * c1 - 2303 → t.e.getLsbD 2 = true) ∧
      ((c11 : Int) ≠ 2 * c1 - 2303 →
        (t.v = 1 ↔ (15 * c11 : Int) < 20 * c1 - 9212 ∧ (15 * c11 : Int) < 10 * c1 + 2303 ∧
          (c11 : Int) > 2 * c1 - 2303 ∧ (5 * c11 : Int) > 5 * c1 - 4606))

/-- The PASS set over the contract square: its size, its bounds and its corner points (R117). -/
def Obligations.PassSetOfTheContractSquare : Prop :=
  ((List.range 2304).map fun c1 => (List.range 2304).countP fun c11 =>
    (poly (BitVec.ofNat 17 c1) (BitVec.ofNat 17 c11)).2 = 1).sum = 583972 ∧
  (∀ c1 c11 : Nat, c1 ≤ 2303 → c11 ≤ 2303 → (poly (BitVec.ofNat 17 c1) (BitVec.ofNat 17 c11)).2 = 1 →
    c11 ≤ c1 ∧ 461 ≤ c1 ∧ c1 ≤ 1842 ∧ c11 ≤ 1381) ∧
  (∀ c1 : Nat, 461 ≤ c1 → c1 ≤ 1842 → ∃ c11, c11 ≤ 1381 ∧ (poly (BitVec.ofNat 17 c1) (BitVec.ofNat 17 c11)).2 = 1) ∧
  (∀ c11 : Nat, c11 ≤ 1381 → ∃ c1, c1 ≤ 1842 ∧ (poly (BitVec.ofNat 17 c1) (BitVec.ofNat 17 c11)).2 = 1) ∧
  LeavesEV (.classify 461 0) 0b1111 1 ∧ LeavesEV (.classify 460 0) 0b1110 0 ∧ LeavesEV (.classify 921 0) 0b1111 1 ∧
  LeavesEV (.classify 922 0) 0b0111 0 ∧ LeavesEV (.classify 1842 1381) 0b1111 1

/-! ### The counter -/

/-- CNT_CLEAR: the five counter registers at their start values, nothing else changed (R131). -/
def Obligations.CntClearStartsABlock : Prop :=
  (∀ s : State, exec .cntClear s = .next { s with c1 := 0, c11 := 0, idx := 0, last := 0, first := 1 }) ∧
  (∀ (w : Command) (s : State), w &&& 0xC00000000F = 0xC → perform w s = exec .cntClear s) ∧
  exec .cntClear State.reset = .next State.reset

/-- CNT_BIT: BITSTEP unless the block is full, then Violation(2) (R130, R132). -/
def Obligations.CntBitFeedsOneBit : Prop :=
  (∀ (b : Bit) (s : State), s.idx.toNat ≠ 2304 → exec (.cntBit b) s = .next { s with
      c1 := if s.first = 0 ∧ b = 1 then s.c1 + 1 else s.c1
      c11 := if s.first = 0 ∧ b = 1 ∧ s.last = 1 then s.c11 + 1 else s.c11
      idx := s.idx + 1, last := b, first := 0 }) ∧
  (∀ (b : Bit) (s : State), s.idx.toNat = 2304 → exec (.cntBit b) s = .next (afterViolation 2 s)) ∧
  (∀ (w : Command) (s : State), w &&& 0xC00000000F = 0xD → perform w s = exec (.cntBit (w.extractLsb' 4 1)) s) ∧
  exec (.cntBit 1) State.reset = .next { State.reset with idx := 1, last := 1, first := 0 }

/-- CNT_BYTE: eight CNT_BITs, least significant bit first, or Violation(2) and no bit when fewer than eight positions
remain (R133). -/
def Obligations.CntByteFeedsEightBits : Prop :=
  (∀ (v : BitVec 8) (s : State), s.idx.toNat ≤ 2296 →
    ∃ t, exec (.cntByte v) s = .next t ∧
      performAll ((List.range 8).map fun i => encode (.cntBit (v.extractLsb' i 1))) s = .next t ∧
      t = withCounterOf t s ∧ t.idx.toNat = s.idx.toNat + 8 ∧ t.last = v.extractLsb' 7 1 ∧ t.first = 0) ∧
  (∀ (v : BitVec 8) (s : State), 2296 < s.idx.toNat → exec (.cntByte v) s = .next (afterViolation 2 s)) ∧
  (∀ (w : Command) (s : State), w &&& 0xC00000000F = 0xE → perform w s = exec (.cntByte (w.extractLsb' 4 8)) s) ∧
  perform 0x000000006E State.reset = .next { State.reset with c1 := 2, c11 := 1, idx := 8, last := 0, first := 0 } ∧
  perform 0x000000003E State.reset = .next { State.reset with c1 := 1, c11 := 1, idx := 8, last := 0, first := 0 } ∧
  perform 0x0000000C0E State.reset = .next { State.reset with c1 := 2, c11 := 1, idx := 8, last := 1, first := 0 }

/-- The closed form of the counts for the bits fed since the counter was cleared, by CNT_BIT or CNT_BYTE and with any other
words in between, illegal ones too, but no CNT_CLEAR; where every word feeds, only the counter registers change (R134). -/
def Obligations.CountsClosedForm : Prop :=
  ∀ (ws : List Command) (bs : List Bit) (s : State), CounterClear s → (∀ w ∈ ws, decode w ≠ .ok .cntClear) →
    bs = ws.flatMap wordBits → bs.length ≤ 2304 →
    ∃ t, performAll ws s = .next t ∧
      t.c1.toNat = onesAfterFirst bs ∧ t.c11.toNat = pairsOfOnes bs ∧ t.idx.toNat = bs.length ∧
      t.last = bs.getLast?.getD 0 ∧ (t.first = 1 ↔ bs = []) ∧
      ((∀ w ∈ ws, wordBits w ≠ []) → t = withCounterOf t s)

/-- The counts do not depend on how the bits are split between CNT_BIT and CNT_BYTE (R133, R137). -/
def Obligations.SplitIntoBytesDoesNotMatter : Prop :=
  ∀ (is : List Instr) (s : State), (∀ i ∈ is, fedBits i ≠ []) → s.idx.toNat + (is.flatMap fedBits).length ≤ 2304 →
    performAll (is.map encode) s = performAll ((is.flatMap fedBits).map fun b => encode (.cntBit b)) s

/-- The value LAST holds when a block starts affects nothing once a bit is fed (R136). -/
def Obligations.StartingLastIsUnobservable : Prop :=
  ∀ (s : State) (l : Bit), s.first = 1 →
    (∀ b, s.idx.toNat ≠ 2304 → exec (.cntBit b) { s with last := l } = exec (.cntBit b) s) ∧
    (∀ v, s.idx.toNat ≤ 2296 → exec (.cntByte v) { s with last := l } = exec (.cntByte v) s)

/-- A full block fed from a cleared counter and then classified: V is 1 exactly when its counts lie in the polygon, and no
violation is recorded (R114, R115, R134). -/
def Obligations.BlockVerdict : Prop :=
  ∀ (bs : List Bit) (s : State), CounterClear s → bs.length = 2304 →
    ∃ t, performAll ((bs.map fun b => encode (.cntBit b)) ++ [encode .cntClassify]) s = .next t ∧
      (t.v = 1 ↔ InPolygon (onesAfterFirst bs) (pairsOfOnes bs)) ∧
      t.c1.toNat = onesAfterFirst bs ∧ t.c11.toNat = pairsOfOnes bs ∧ t.viol = s.viol ∧ t.vcause = s.vcause

/-! ### NOP, violations and whole-machine rules -/

/-- NOP changes nothing; a word with OP 0 and reserved bits set is no NOP (R150). -/
def Obligations.NopChangesNothing : Prop :=
  (∀ s : State, exec .nop s = .next s) ∧
  (∀ (w : Command) (s : State), w &&& 0xC00000000F = 0x0 → perform w s = .next s) ∧
  (∀ (w : Command) (s : State), w &&& 0xF = 0x0 → 2 ^ 38 ≤ w.toNat → perform w s = .next (afterViolation 1 s))

/-- The violation procedure: the first cause is kept, VIOL is set, and no other register changes (R161). -/
def Obligations.ViolationKeepsTheFirstCause : Prop :=
  ∀ (cause : ViolationCause) (s : State),
    (s.viol = 0 → raiseViolation cause s = { s with viol := 1, vcause := causeCode cause }) ∧
    (s.viol ≠ 0 → raiseViolation cause s = { s with viol := 1 }) ∧
    (causeCode .rsvNonzero = 1 ∧ causeCode .blockOverrun = 2 ∧ causeCode .blockIncomplete = 3)

/-- A word with RSV != 0 records Violation(1), whatever its OP, and changes nothing else (R53, R163). -/
def Obligations.ReservedBitsRecordViolationOne : Prop :=
  ∀ (w : Command) (s : State), w.extractLsb' 38 2 ≠ 0 → perform w s = .next (afterViolation 1 s)

/-- A command word changes the violation record exactly as the one violation it raises does, and then nothing else changes;
one that raises none leaves the record alone. The causes are RSV != 0 before all else, then the two of the counter's
commands and the one of CNT_CLASSIFY, with the codes 1, 2 and 3 (R162). -/
def Obligations.ViolationsAreExactlyTheThree : Prop :=
  ∀ (w : Command) (s t : State), perform w s = .next t →
    (2 ^ 38 ≤ w.toNat → t = afterViolation 1 s) ∧
    (∀ i, decode w = .ok i →
      (raisedBy i s = some .blockOverrun → t = afterViolation 2 s) ∧
      (raisedBy i s = some .blockIncomplete → t = afterViolation 3 s) ∧
      raisedBy i s ≠ some .rsvNonzero ∧
      (raisedBy i s = none → t.viol = s.viol ∧ t.vcause = s.vcause))

/-- VIOL and VCAUSE are sticky: no step but reset changes them once VIOL is 1 (R32, R33, R164). -/
def Obligations.ViolationIsStickyAcrossSteps : Prop :=
  ∀ s t : State, Faulted s → step s = .next t → (∀ rest, s.pending ≠ .reset :: rest) →
    Faulted t ∧ t.vcause = s.vcause

/-- VIOL and VCAUSE are sticky under commands, only reset clears them, and after a violation commands do to every other
register exactly what they did before (R164). -/
def Obligations.ViolationIsStickyAndChangesNoMeaning : Prop :=
  (∀ (w : Command) (s t : State), perform w s = .next t → Faulted s → Faulted t ∧ t.vcause = s.vcause) ∧
  (∀ s : State, ∃ t, performAction .reset s = .next t ∧ t.viol = 0 ∧ t.vcause = 0) ∧
  ∀ (w : Command) (s t : State) (viol : Bit) (vcause : BitVec 2), perform w s = .next t →
    ∃ t', perform w (withRecord viol vcause s) = .next t' ∧ t' = withRecord t'.viol t'.vcause t

/-- Which commands write which register; every other command leaves it unchanged (R20 to R33). -/
def Obligations.OnlyTheListedCommandsWrite : Prop :=
  ∀ (i : Instr) (s t : State), exec i s = .next t →
    (writesR i = false → t.r = s.r) ∧
    ((∀ a b, i ≠ .lt a b) → (∀ a b, i ≠ .gt a b) → t.f = s.f) ∧
    ((∀ a, i ≠ .sext a) → t.x = s.x) ∧
    ((∀ a b, i ≠ .classify a b) → i ≠ .cntClassify → t.e = s.e ∧ t.v = s.v) ∧
    (i ≠ .cntClear → fedBits i = [] → t = withCounterOf s t) ∧
    (raisedBy i s = none → t = withRecord s.viol s.vcause t)

/-- V is the conjunction of E's four bits in every state a step leaves, if it was before (R25). -/
def Obligations.StepKeepsVerdictInvariant : Prop :=
  ∀ s t : State, VerdictInv s → step s = .next t → VerdictInv t

/-- The range invariants hold after every step from a state in which they hold (R37, R30, R135). -/
def Obligations.StepKeepsRangeInvariant : Prop :=
  ∀ s t : State, RangeInv s → step s = .next t → RangeInv t

/-- The reset state satisfies both invariants (R37, R180). -/
def Obligations.ResetSatisfiesInvariants : Prop := RangeInv State.reset ∧ VerdictInv State.reset

/-- Every state the host's actions can reach from reset satisfies the range invariants, in R37's own form, and the
verdict invariant (R25, R37). -/
def Obligations.ReachableStatesSatisfyInvariants : Prop :=
  ∀ s : State, Reachable s →
    s.idx.toNat ≤ 2304 ∧ (s.first = 1 ↔ s.idx = 0) ∧ s.c11.toNat ≤ s.c1.toNat ∧
    s.c1.toNat ≤ max (s.idx.toNat - 1) 0 ∧ s.c1.toNat ≤ 2303 ∧ (s.viol = 0 → s.vcause = 0) ∧
    (s.viol = 1 → s.vcause ≠ 0) ∧ VerdictInv s

/-! ### The assembler and the disassembler -/

/-- A command assembles exactly when it is well formed; an operand out of range is an error, not a wrapped value; what it
assembles to has RSV and every ignored field 0, but for `.word`, which emits its ten digits verbatim (R55). The first clause rests on
the MODEL'S CHOICES of log entry 10, which R55 does not state: `wellFormed` refuses a hexadecimal CNT_BIT operand and a
FEEDBYTES with no byte, accepts a hexadecimal byte of any number of digits, and has `.word` take exactly ten. -/
def Obligations.AssemblerAcceptsExactlyWellFormed : Prop :=
  (∀ c : SourceCommand, (∃ ws, assemble c = some ws) ↔ c.wellFormed = true) ∧
  (∀ (m : Mnemonic) (args : List Numeral) (n : Numeral), n ∈ args → (n.value < -65536 ∨ 131071 < n.value) →
    assemble (.op m args) = none) ∧
  (∀ (m : Mnemonic) (args : List Numeral) (ws : List Command), assemble (.op m args) = some ws →
    ∀ w ∈ ws, w = w &&& usedBits w ∧ w.toNat < 2 ^ 38) ∧
  (∀ n : Nat, n < 2 ^ 40 → assemble (.word (.hex 10 n)) = some [BitVec.ofNat 40 n]) ∧
  ∀ n : Int, -65536 ≤ n → n < 0 →
    assemble (.op .sext [.dec n]) = assemble (.op .sext [.dec (n + 131072)]) ∧
    assemble (.op .sext [.dec n]) = assemble (.op .sext [.hex 5 (n + 131072).toNat])

/-- The pseudo-instructions' expansions and what performing them leaves (R56). Which numerals `inRange` admits rests in part on
the MODEL'S CHOICES of log entry 10, which R55 does not state: a hexadecimal byte of FEEDBYTES may have any number of digits
(`0xF`), and `-0` spells 0. -/
def Obligations.PseudoInstructionsExpand : Prop :=
  (∀ (a b : Numeral) (s : State), a.inRange .fixed17 = true → b.inRange .fixed17 = true →
    (∃ ws, assemble (.op .mov [a]) = some ws ∧ assemble (.op .add [a, .dec 0]) = some ws ∧
      performAll ws s = .next { s with r := mask17 a.value }) ∧
    (∃ ws, assemble (.op .neg [a]) = some ws ∧ assemble (.op .sub [.dec 0, a]) = some ws ∧
      performAll ws s = .next { s with r := mask17 (-((mask17 a.value).toNat : Int)) }) ∧
    (∃ ws, assemble (.op .ge [a, b]) = some ws ∧ assemble (.op .gt [a, b]) = some ws ∧
      performAll ws s = .next { s with
        f := if 65536 ≤ (((mask17 a.value).toNat : Int) - (mask17 b.value).toNat) % 131072 then 0 else 1 }) ∧
    (∃ ws, assemble (.op .le [a, b]) = some ws ∧ assemble (.op .gt [b, a]) = some ws ∧
      performAll ws s = .next { s with
        f := if 65536 ≤ (((mask17 b.value).toNat : Int) - (mask17 a.value).toNat) % 131072 then 0 else 1 })) ∧
  ∀ vs : List Numeral, vs ≠ [] → (∀ v ∈ vs, v.inRange .byte = true) →
    assemble (.op .feedBytes vs) = some (vs.map fun v => encode (.cntByte (BitVec.ofInt 8 v.value)))

/-- Assembling what disassembly prints gives the canonical word, and `.word` text gives an illegal word back; two legal
words print the same exactly when they differ in ignored bits only (R57). The printed spacing and letter case are the model's
choice (log entry 16), and so is what else the assembler reads (log entry 10). -/
def Obligations.DisassemblyReassembles : Prop :=
  (∀ w : Command, w.toNat < 2 ^ 38 → assembleText (disassemble w) = some [w &&& usedBits w]) ∧
  (∀ w : Command, 2 ^ 38 ≤ w.toNat → assembleText (disassemble w) = some [w]) ∧
  ∀ w w' : Command, w.toNat < 2 ^ 38 → w'.toNat < 2 ^ 38 →
    (disassemble w = disassemble w' ↔ w &&& usedBits w = w' &&& usedBits w')
end

