-- ==== Sys2Proof/Laws/Alu.lean ====
section
/-! SUPPORT. What each function of the arithmetic unit computes, in natural numbers and integers: one lemma per function, which later
proofs cite in place of unfolding it. -/

namespace Sys2Proof.Machine

open Sys2Proof.Safety

theorem getLsbD_sixteen (x : Fixed17) : x.getLsbD 16 = decide (65536 ≤ x.toNat) := by
  have h := BitVec.msb_eq_decide x
  simpa [BitVec.msb_eq_getLsbD_last] using h

theorem s17_eq (x : Fixed17) : s17 x = if 65536 ≤ x.toNat then (x.toNat : Int) - 131072 else x.toNat := by
  rw [s17, getLsbD_sixteen]
  simp only [decide_eq_true_eq]

theorem s17_emod (x : Fixed17) : s17 x % 131072 = x.toNat := by
  have := x.isLt
  rw [s17_eq]
  split <;> omega

theorem toNat_mask17 (n : Int) : ((mask17 n).toNat : Int) = n % 131072 := by
  simp only [mask17, BitVec.toNat_ofInt]
  omega

/-- Two 17-bit patterns are equal when their unsigned values are. -/
theorem eq_mask17_iff (x : Fixed17) (n : Int) : x = mask17 n ↔ (x.toNat : Int) = n % 131072 := by
  rw [← toNat_mask17, Int.ofNat_inj, BitVec.toNat_inj]

theorem toNat_add17 (x y : Fixed17) : (add17 x y).toNat = (x.toNat + y.toNat) % 131072 := by
  simp [add17, BitVec.toNat_add]

theorem toNat_sub17 (x y : Fixed17) : ((sub17 x y).toNat : Int) = ((x.toNat : Int) - y.toNat) % 131072 := by
  have := x.isLt
  have := y.isLt
  simp only [sub17, BitVec.toNat_sub]
  omega

/-- R71's two arms as one formula: the single form the rule derives. -/
theorem toNat_dbl (x : Fixed17) :
    (dbl x).toNat = (if 32768 ≤ x.toNat then 65536 else 0) + 2 * x.toNat % 65536 := by
  have hx := x.isLt
  unfold dbl
  rw [getLsbD_sixteen]
  by_cases h : 65536 ≤ x.toNat
  · simp only [h, decide_true, if_true, if_pos (Nat.le_trans (by decide : 32768 ≤ 65536) h)]
    rw [BitVec.toNat_append, BitVec.toNat_append]
    simp only [BitVec.extractLsb'_toNat, BitVec.toNat_ofNat, Nat.shiftRight_zero]
    rw [← Nat.shiftLeft_add_eq_or_of_lt (by omega), ← Nat.shiftLeft_add_eq_or_of_lt (by omega)]
    simp only [Nat.shiftLeft_eq]
    omega
  · simp only [h, decide_false, Bool.false_eq_true, if_false, BitVec.toNat_shiftLeft, Nat.shiftLeft_eq]
    split <;> omega

/-- R72's closed form. -/
theorem toNat_dblk_one (x : Fixed17) : (dblk x 1).toNat = chain x 1 := by
  have := x.isLt
  simp only [dblk, toNat_dbl, chain]
  split <;> split <;> omega

theorem toNat_dblk_two (x : Fixed17) : (dblk x 2).toNat = chain x 2 := by
  have := x.isLt
  rw [dblk, toNat_dbl, toNat_dblk_one]
  simp only [chain]
  split <;> split <;> split <;> omega

theorem toNat_dblk_three (x : Fixed17) : (dblk x 3).toNat = chain x 3 := by
  have := x.isLt
  rw [dblk, toNat_dbl, toNat_dblk_two]
  simp only [chain]
  split <;> split <;> split <;> omega

theorem toNat_dblk_four (x : Fixed17) : (dblk x 4).toNat = chain x 4 := by
  have := x.isLt
  rw [dblk, toNat_dbl, toNat_dblk_three]
  simp only [chain]
  split <;> split <;> split <;> omega

theorem toNat_mul2_17 (x : Fixed17) : (mul2_17 x).toNat = chain x 1 := toNat_dblk_one x

theorem toNat_mul5_17 (x : Fixed17) : (mul5_17 x).toNat = (x.toNat + chain x 2) % 131072 := by
  rw [mul5_17, toNat_add17, toNat_dblk_two]

theorem toNat_mul10_17 (x : Fixed17) : (mul10_17 x).toNat = (chain x 3 + chain x 1) % 131072 := by
  rw [mul10_17, toNat_add17, toNat_dblk_three, toNat_dblk_one]

theorem toNat_mul15_17 (x : Fixed17) : ((mul15_17 x).toNat : Int) = ((chain x 4 : Int) - x.toNat) % 131072 := by
  rw [mul15_17, toNat_sub17, toNat_dblk_four]

theorem toNat_mul20_17 (x : Fixed17) : (mul20_17 x).toNat = (chain x 4 + chain x 2) % 131072 := by
  rw [mul20_17, toNat_add17, toNat_dblk_four, toNat_dblk_two]

/-- Two integers have the same pattern exactly when they differ by a multiple of 2^17. -/
theorem mask17_eq_iff (a b : Int) : mask17 a = mask17 b ↔ (a - b) % 131072 = 0 := by
  rw [eq_mask17_iff, toNat_mask17]
  exact Int.emod_eq_emod_iff_emod_sub_eq_zero

/-- Each scalar multiply as the pattern of an integer sum of chains (R75 to R79). -/
theorem mul2_17_eq (x : Fixed17) : mul2_17 x = mask17 (chain x 1) := by
  rw [eq_mask17_iff, ← toNat_mul2_17]
  have := (mul2_17 x).isLt
  omega

theorem mul5_17_eq (x : Fixed17) : mul5_17 x = mask17 (x.toNat + chain x 2) := by
  rw [eq_mask17_iff, toNat_mul5_17]
  omega

theorem mul10_17_eq (x : Fixed17) : mul10_17 x = mask17 (chain x 3 + chain x 1) := by
  rw [eq_mask17_iff, toNat_mul10_17]
  omega

theorem mul15_17_eq (x : Fixed17) : mul15_17 x = mask17 ((chain x 4 : Int) - x.toNat) := by
  rw [eq_mask17_iff, toNat_mul15_17]

theorem mul20_17_eq (x : Fixed17) : mul20_17 x = mask17 (chain x 4 + chain x 2) := by
  rw [eq_mask17_iff, toNat_mul20_17]
  omega

theorem toNat_sext32 (x : Fixed17) :
    (sext32 x).toNat = if 65536 ≤ x.toNat then x.toNat + 4294836224 else x.toNat := by
  have hx := x.isLt
  unfold sext32
  rw [getLsbD_sixteen]
  by_cases h : 65536 ≤ x.toNat
  · simp only [h, decide_true, if_true, BitVec.toNat_or, BitVec.toNat_setWidth, BitVec.toNat_ofNat]
    rw [Nat.or_comm, show (4294836224 % 2 ^ 32 : Nat) = 32767 <<< 17 from rfl,
      ← Nat.shiftLeft_add_eq_or_of_lt (by omega), Nat.shiftLeft_eq]
    omega
  · simp only [h, decide_false, Bool.false_eq_true, if_false, BitVec.toNat_setWidth]
    omega

/-- A one-bit value is 1 or it is 0. -/
theorem bit_cases (b : Bit) : b = 0 ∨ b = 1 := by
  have := b.isLt
  rcases (by omega : b.toNat = 0 ∨ b.toNat = 1) with h | h
  · exact .inl (BitVec.eq_of_toNat_eq h)
  · exact .inr (BitVec.eq_of_toNat_eq h)

theorem signBit_eq (x : Fixed17) : x.extractLsb' 16 1 = if 65536 ≤ x.toNat then 1 else 0 := by
  have hx := x.isLt
  apply BitVec.eq_of_toNat_eq
  rw [BitVec.extractLsb'_toNat, Nat.shiftRight_eq_div_pow]
  split <;> simp <;> omega

/-- While the true difference is in range, the wrapped sign is the order (R86, law (c)). -/
theorem wrapsNegative_iff_lt (a b : Int) (hlo : -65536 ≤ a - b) (hhi : a - b ≤ 65535) : WrapsNegative a b ↔ a < b := by
  unfold WrapsNegative
  by_cases h : a < b
  · have : (a - b) % 131072 = a - b + 131072 := by omega
    omega
  · have : (a - b) % 131072 = a - b := by omega
    omega

/-- LT17 is bit 16 of the wrapped difference (R80). -/
theorem lt17_eq_one_iff (x y : Fixed17) : lt17 x y = 1 ↔ WrapsNegative x.toNat y.toNat := by
  have h := toNat_sub17 x y
  rw [lt17, signBit_eq, WrapsNegative]
  split <;> simp <;> omega

/-- GT17 is its complement (R81). -/
theorem gt17_eq_one_iff (x y : Fixed17) : gt17 x y = 1 ↔ ¬ WrapsNegative x.toNat y.toNat := by
  rw [← lt17_eq_one_iff, gt17, lt17]
  rcases bit_cases ((sub17 x y).extractLsb' 16 1) with h | h <;> rw [h] <;> decide

end Sys2Proof.Machine
end

