-- ==== Sys2Proof/Laws/Decode.lean ====
section
/-! SUPPORT. The fields of a packed word, the fields of any word as numbers, and the opcode map one OP at a time. -/

namespace Sys2Proof

@[simp] theorem opField_packWord (op : BitVec 4) (a b : Fixed17) : opField (packWord op a b) = op := by
  apply BitVec.eq_of_getLsbD_eq
  intro i hi
  simp only [opField, packWord, BitVec.getLsbD_extractLsb', BitVec.getLsbD_append]
  simp [hi]

@[simp] theorem aField_packWord (op : BitVec 4) (a b : Fixed17) : aField (packWord op a b) = a := by
  apply BitVec.eq_of_getLsbD_eq
  intro i hi
  simp only [aField, packWord, BitVec.getLsbD_extractLsb', BitVec.getLsbD_append]
  simp [hi]

@[simp] theorem bField_packWord (op : BitVec 4) (a b : Fixed17) : bField (packWord op a b) = b := by
  apply BitVec.eq_of_getLsbD_eq
  intro i hi
  simp only [bField, packWord, BitVec.getLsbD_extractLsb', BitVec.getLsbD_append]
  have h1 : ¬ 21 + i < 4 := by omega
  have h2 : ¬ 21 + i - 4 < 17 := by omega
  have h3 : 21 + i - 4 - 17 = i := by omega
  simp [hi, h1, h2, h3]

@[simp] theorem rsvField_packWord (op : BitVec 4) (a b : Fixed17) : rsvField (packWord op a b) = 0 := by
  apply BitVec.eq_of_getLsbD_eq
  intro i hi
  simp only [rsvField, packWord, BitVec.getLsbD_extractLsb', BitVec.getLsbD_append]
  have h1 : ¬ 38 + i < 4 := by omega
  have h2 : ¬ 38 + i - 4 < 17 := by omega
  have h3 : ¬ 38 + i - 4 - 17 < 17 := by omega
  simp [hi, h1, h2, h3]

/-- A word is its fields (R50). -/
theorem packWord_fields (w : Command) (h : rsvField w = 0) : packWord (opField w) (aField w) (bField w) = w := by
  apply BitVec.eq_of_getLsbD_eq
  intro i hi
  have hr : ∀ j, (rsvField w).getLsbD j = false := by simp [h]
  simp only [rsvField, BitVec.getLsbD_extractLsb'] at hr
  simp only [packWord, opField, aField, bField, BitVec.getLsbD_extractLsb', BitVec.getLsbD_append]
  by_cases h1 : i < 4
  · simp [h1]
  by_cases h2 : i < 21
  · have h3 : i - 4 < 17 := by omega
    have h4 : 4 + (i - 4) = i := by omega
    simp [h1, h3, h4]
  by_cases h5 : i < 38
  · have h3 : ¬ i - 4 < 17 := by omega
    have h4 : i - 4 - 17 < 17 := by omega
    have h6 : 21 + (i - 4 - 17) = i := by omega
    simp [h1, h3, h4, h6]
  · have h3 : ¬ i - 4 < 17 := by omega
    have h4 : ¬ i - 4 - 17 < 17 := by omega
    have h6 : i - 38 < 2 := by omega
    have h7 : 38 + (i - 38) = i := by omega
    have := hr (i - 38)
    simp [h6, h7] at this
    simp [h1, h3, h4, this]

theorem toNat_rsvField (w : Command) : (rsvField w).toNat = w.toNat / 2 ^ 38 := by
  have := w.isLt
  rw [rsvField, BitVec.extractLsb'_toNat, Nat.shiftRight_eq_div_pow]
  omega

/-- RSV is 0 exactly for the 2^38 legal words (R54). -/
theorem rsvField_eq_zero_iff (w : Command) : rsvField w = 0 ↔ w.toNat < 2 ^ 38 := by
  rw [← BitVec.toNat_inj, toNat_rsvField]
  simp

theorem toNat_opField (w : Command) : (opField w).toNat = w.toNat % 16 := by
  rw [opField, BitVec.extractLsb'_toNat]
  simp

@[simp] theorem bitOperand_eq (w : Command) : bitOperand w = w.extractLsb' 4 1 := by
  apply BitVec.eq_of_getLsbD_eq
  intro i hi
  have h : i = 0 := by omega
  simp [bitOperand, aField, h]

theorem byteOperand_eq (w : Command) : byteOperand w = w.extractLsb' 4 8 := by
  apply BitVec.eq_of_getLsbD_eq
  intro i hi
  have h : i < 17 := by omega
  simp [byteOperand, aField, hi, h]

/-- A word matches an OP of the table when its RSV is 0 and its low four bits are the OP (R52). -/
theorem match_iff (w : Command) (op : BitVec 4) :
    w &&& 0xC00000000F = op.setWidth 40 ↔ rsvField w = 0 ∧ opField w = op := by
  constructor
  · intro h
    have hb : ∀ i, i < 40 → (w.getLsbD i && (0xC00000000F : Command).getLsbD i) = (op.setWidth 40).getLsbD i := by
      intro i _
      rw [← BitVec.getLsbD_and, h]
    constructor
    · apply BitVec.eq_of_getLsbD_eq
      intro i hi
      rcases (by omega : i = 0 ∨ i = 1) with rfl | rfl
      · simpa [rsvField] using hb 38 (by omega)
      · simpa [rsvField] using hb 39 (by omega)
    · apply BitVec.eq_of_getLsbD_eq
      intro i hi
      rcases (by omega : i = 0 ∨ i = 1 ∨ i = 2 ∨ i = 3) with rfl | rfl | rfl | rfl
      · simpa [opField] using hb 0 (by omega)
      · simpa [opField] using hb 1 (by omega)
      · simpa [opField] using hb 2 (by omega)
      · simpa [opField] using hb 3 (by omega)
  · rintro ⟨hr, rfl⟩
    have hw := packWord_fields w hr
    apply BitVec.eq_of_toNat_eq
    have h1 := (rsvField_eq_zero_iff w).mp hr
    have h2 : w.toNat &&& 0xC00000000F = w.toNat % 16 := by
      apply Nat.eq_of_testBit_eq
      intro i
      rw [Nat.testBit_and, show (16 : Nat) = 2 ^ 4 from rfl, Nat.testBit_mod_two_pow]
      by_cases hi : i < 38
      · have : ∀ j : Fin 38, (0xC00000000F).testBit j.val = decide (j.val < 4) := by decide
        rw [this ⟨i, hi⟩, Bool.and_comm]
      · rw [Nat.testBit_lt_two_pow (Nat.lt_of_lt_of_le h1 (Nat.pow_le_pow_right (by omega) (by omega)))]
        simp
    rw [BitVec.toNat_and, BitVec.toNat_setWidth, toNat_opField, show (0xC00000000F : Command).toNat = 0xC00000000F from rfl, h2]
    omega

/-- Decoding a word whose RSV is 0. -/
theorem decode_legal (w : Command) (h : rsvField w = 0) : decode w = .ok (decodeOp w) := if_pos h

theorem decode_illegal (w : Command) (h : rsvField w ≠ 0) : decode w = .error .rsvNonzero := if_neg h

/-- The command of each OP, in the word's fields (R52). -/
theorem decodeOp_of_op (w : Command) (op : BitVec 4) (h : opField w = op) :
    decodeOp w = match op.toFin with
      | ⟨0x0, _⟩ => .nop
      | ⟨0x1, _⟩ => .add (aField w) (bField w)
      | ⟨0x2, _⟩ => .sub (aField w) (bField w)
      | ⟨0x3, _⟩ => .mul2 (aField w)
      | ⟨0x4, _⟩ => .mul5 (aField w)
      | ⟨0x5, _⟩ => .mul10 (aField w)
      | ⟨0x6, _⟩ => .mul15 (aField w)
      | ⟨0x7, _⟩ => .mul20 (aField w)
      | ⟨0x8, _⟩ => .lt (aField w) (bField w)
      | ⟨0x9, _⟩ => .gt (aField w) (bField w)
      | ⟨0xA, _⟩ => .sext (aField w)
      | ⟨0xB, _⟩ => .classify (aField w) (bField w)
      | ⟨0xC, _⟩ => .cntClear
      | ⟨0xD, _⟩ => .cntBit (bitOperand w)
      | ⟨0xE, _⟩ => .cntByte (byteOperand w)
      | ⟨0xF, _⟩ => .cntClassify
      | ⟨_ + 16, hn⟩ => absurd hn (by omega) := by
  subst h
  rfl

/-- The sixteen values of OP. -/
theorem opField_cases (op : BitVec 4) :
    op = 0x0 ∨ op = 0x1 ∨ op = 0x2 ∨ op = 0x3 ∨ op = 0x4 ∨ op = 0x5 ∨ op = 0x6 ∨ op = 0x7 ∨
      op = 0x8 ∨ op = 0x9 ∨ op = 0xA ∨ op = 0xB ∨ op = 0xC ∨ op = 0xD ∨ op = 0xE ∨ op = 0xF := by
  revert op
  decide

/-- Masking a packed word masks its fields. -/
theorem packWord_and (op mo : BitVec 4) (a b ma mb : Fixed17) (r : BitVec 2) :
    packWord op a b &&& (r ++ mb ++ ma ++ mo : BitVec 40) = packWord (op &&& mo) (a &&& ma) (b &&& mb) := by
  unfold packWord
  apply BitVec.eq_of_getLsbD_eq
  intro i hi
  simp only [BitVec.getLsbD_and, BitVec.getLsbD_append]
  split
  · rfl
  split
  · rfl
  split
  · rfl
  · simp

/-- The used bits of a word depend on its OP only. -/
theorem usedBits_of_opField (w : Command) (op : BitVec 4) (h : opField w = op) :
    usedBits w = usedBits (op.setWidth 40) := by
  have e : opField (op.setWidth 40) = op := by
    apply BitVec.eq_of_getLsbD_eq
    intro i hi
    simp only [opField, BitVec.getLsbD_extractLsb', BitVec.getLsbD_setWidth]
    simp [hi]
    intro
    omega
  unfold usedBits
  rw [h, e]

end Sys2Proof
end

