-- ==== Sys2Proof/Laws/State.lean ====
section
/-! SUPPORT. One lemma per field per state update, so that no later proof unfolds a record update. -/

namespace Sys2Proof.Machine

/-! `writeR` -/

@[simp] theorem writeR_r (val : Fixed17) (s : State) : (writeR val s).r = val := rfl
@[simp] theorem writeR_f (val : Fixed17) (s : State) : (writeR val s).f = s.f := rfl
@[simp] theorem writeR_x (val : Fixed17) (s : State) : (writeR val s).x = s.x := rfl
@[simp] theorem writeR_e (val : Fixed17) (s : State) : (writeR val s).e = s.e := rfl
@[simp] theorem writeR_v (val : Fixed17) (s : State) : (writeR val s).v = s.v := rfl
@[simp] theorem writeR_c1 (val : Fixed17) (s : State) : (writeR val s).c1 = s.c1 := rfl
@[simp] theorem writeR_c11 (val : Fixed17) (s : State) : (writeR val s).c11 = s.c11 := rfl
@[simp] theorem writeR_idx (val : Fixed17) (s : State) : (writeR val s).idx = s.idx := rfl
@[simp] theorem writeR_last (val : Fixed17) (s : State) : (writeR val s).last = s.last := rfl
@[simp] theorem writeR_first (val : Fixed17) (s : State) : (writeR val s).first = s.first := rfl
@[simp] theorem writeR_viol (val : Fixed17) (s : State) : (writeR val s).viol = s.viol := rfl
@[simp] theorem writeR_vcause (val : Fixed17) (s : State) : (writeR val s).vcause = s.vcause := rfl
@[simp] theorem writeR_pending (val : Fixed17) (s : State) : (writeR val s).pending = s.pending := rfl
@[simp] theorem writeR_reads (val : Fixed17) (s : State) : (writeR val s).reads = s.reads := rfl

/-! `writeF` -/

@[simp] theorem writeF_r (val : Bit) (s : State) : (writeF val s).r = s.r := rfl
@[simp] theorem writeF_f (val : Bit) (s : State) : (writeF val s).f = val := rfl
@[simp] theorem writeF_x (val : Bit) (s : State) : (writeF val s).x = s.x := rfl
@[simp] theorem writeF_e (val : Bit) (s : State) : (writeF val s).e = s.e := rfl
@[simp] theorem writeF_v (val : Bit) (s : State) : (writeF val s).v = s.v := rfl
@[simp] theorem writeF_c1 (val : Bit) (s : State) : (writeF val s).c1 = s.c1 := rfl
@[simp] theorem writeF_c11 (val : Bit) (s : State) : (writeF val s).c11 = s.c11 := rfl
@[simp] theorem writeF_idx (val : Bit) (s : State) : (writeF val s).idx = s.idx := rfl
@[simp] theorem writeF_last (val : Bit) (s : State) : (writeF val s).last = s.last := rfl
@[simp] theorem writeF_first (val : Bit) (s : State) : (writeF val s).first = s.first := rfl
@[simp] theorem writeF_viol (val : Bit) (s : State) : (writeF val s).viol = s.viol := rfl
@[simp] theorem writeF_vcause (val : Bit) (s : State) : (writeF val s).vcause = s.vcause := rfl
@[simp] theorem writeF_pending (val : Bit) (s : State) : (writeF val s).pending = s.pending := rfl
@[simp] theorem writeF_reads (val : Bit) (s : State) : (writeF val s).reads = s.reads := rfl

/-! `writeX` -/

@[simp] theorem writeX_r (val : Display) (s : State) : (writeX val s).r = s.r := rfl
@[simp] theorem writeX_f (val : Display) (s : State) : (writeX val s).f = s.f := rfl
@[simp] theorem writeX_x (val : Display) (s : State) : (writeX val s).x = val := rfl
@[simp] theorem writeX_e (val : Display) (s : State) : (writeX val s).e = s.e := rfl
@[simp] theorem writeX_v (val : Display) (s : State) : (writeX val s).v = s.v := rfl
@[simp] theorem writeX_c1 (val : Display) (s : State) : (writeX val s).c1 = s.c1 := rfl
@[simp] theorem writeX_c11 (val : Display) (s : State) : (writeX val s).c11 = s.c11 := rfl
@[simp] theorem writeX_idx (val : Display) (s : State) : (writeX val s).idx = s.idx := rfl
@[simp] theorem writeX_last (val : Display) (s : State) : (writeX val s).last = s.last := rfl
@[simp] theorem writeX_first (val : Display) (s : State) : (writeX val s).first = s.first := rfl
@[simp] theorem writeX_viol (val : Display) (s : State) : (writeX val s).viol = s.viol := rfl
@[simp] theorem writeX_vcause (val : Display) (s : State) : (writeX val s).vcause = s.vcause := rfl
@[simp] theorem writeX_pending (val : Display) (s : State) : (writeX val s).pending = s.pending := rfl
@[simp] theorem writeX_reads (val : Display) (s : State) : (writeX val s).reads = s.reads := rfl

/-! `writeVerdict` -/

@[simp] theorem writeVerdict_r (ev : BitVec 4 × Bit) (s : State) : (writeVerdict ev s).r = s.r := rfl
@[simp] theorem writeVerdict_f (ev : BitVec 4 × Bit) (s : State) : (writeVerdict ev s).f = s.f := rfl
@[simp] theorem writeVerdict_x (ev : BitVec 4 × Bit) (s : State) : (writeVerdict ev s).x = s.x := rfl
@[simp] theorem writeVerdict_e (ev : BitVec 4 × Bit) (s : State) : (writeVerdict ev s).e = ev.1 := rfl
@[simp] theorem writeVerdict_v (ev : BitVec 4 × Bit) (s : State) : (writeVerdict ev s).v = ev.2 := rfl
@[simp] theorem writeVerdict_c1 (ev : BitVec 4 × Bit) (s : State) : (writeVerdict ev s).c1 = s.c1 := rfl
@[simp] theorem writeVerdict_c11 (ev : BitVec 4 × Bit) (s : State) : (writeVerdict ev s).c11 = s.c11 := rfl
@[simp] theorem writeVerdict_idx (ev : BitVec 4 × Bit) (s : State) : (writeVerdict ev s).idx = s.idx := rfl
@[simp] theorem writeVerdict_last (ev : BitVec 4 × Bit) (s : State) : (writeVerdict ev s).last = s.last := rfl
@[simp] theorem writeVerdict_first (ev : BitVec 4 × Bit) (s : State) : (writeVerdict ev s).first = s.first := rfl
@[simp] theorem writeVerdict_viol (ev : BitVec 4 × Bit) (s : State) : (writeVerdict ev s).viol = s.viol := rfl
@[simp] theorem writeVerdict_vcause (ev : BitVec 4 × Bit) (s : State) : (writeVerdict ev s).vcause = s.vcause := rfl
@[simp] theorem writeVerdict_pending (ev : BitVec 4 × Bit) (s : State) : (writeVerdict ev s).pending = s.pending := rfl
@[simp] theorem writeVerdict_reads (ev : BitVec 4 × Bit) (s : State) : (writeVerdict ev s).reads = s.reads := rfl

/-! `clearCounter` -/

@[simp] theorem clearCounter_r (s : State) : (clearCounter s).r = s.r := rfl
@[simp] theorem clearCounter_f (s : State) : (clearCounter s).f = s.f := rfl
@[simp] theorem clearCounter_x (s : State) : (clearCounter s).x = s.x := rfl
@[simp] theorem clearCounter_e (s : State) : (clearCounter s).e = s.e := rfl
@[simp] theorem clearCounter_v (s : State) : (clearCounter s).v = s.v := rfl
@[simp] theorem clearCounter_c1 (s : State) : (clearCounter s).c1 = 0 := rfl
@[simp] theorem clearCounter_c11 (s : State) : (clearCounter s).c11 = 0 := rfl
@[simp] theorem clearCounter_idx (s : State) : (clearCounter s).idx = 0 := rfl
@[simp] theorem clearCounter_last (s : State) : (clearCounter s).last = 0 := rfl
@[simp] theorem clearCounter_first (s : State) : (clearCounter s).first = 1 := rfl
@[simp] theorem clearCounter_viol (s : State) : (clearCounter s).viol = s.viol := rfl
@[simp] theorem clearCounter_vcause (s : State) : (clearCounter s).vcause = s.vcause := rfl
@[simp] theorem clearCounter_pending (s : State) : (clearCounter s).pending = s.pending := rfl
@[simp] theorem clearCounter_reads (s : State) : (clearCounter s).reads = s.reads := rfl

/-! `bitStep` -/

@[simp] theorem bitStep_r (b : Bit) (s : State) : (bitStep b s).r = s.r := rfl
@[simp] theorem bitStep_f (b : Bit) (s : State) : (bitStep b s).f = s.f := rfl
@[simp] theorem bitStep_x (b : Bit) (s : State) : (bitStep b s).x = s.x := rfl
@[simp] theorem bitStep_e (b : Bit) (s : State) : (bitStep b s).e = s.e := rfl
@[simp] theorem bitStep_v (b : Bit) (s : State) : (bitStep b s).v = s.v := rfl
@[simp] theorem bitStep_c1 (b : Bit) (s : State) : (bitStep b s).c1 = if s.first = 0 ∧ b = 1 then s.c1 + 1 else s.c1 := rfl
@[simp] theorem bitStep_c11 (b : Bit) (s : State) : (bitStep b s).c11 = if s.first = 0 ∧ (b ++ s.last : BitVec 2) = 0b11#2 then s.c11 + 1 else s.c11 := rfl
@[simp] theorem bitStep_idx (b : Bit) (s : State) : (bitStep b s).idx = s.idx + 1 := rfl
@[simp] theorem bitStep_last (b : Bit) (s : State) : (bitStep b s).last = b := rfl
@[simp] theorem bitStep_first (b : Bit) (s : State) : (bitStep b s).first = 0 := rfl
@[simp] theorem bitStep_viol (b : Bit) (s : State) : (bitStep b s).viol = s.viol := rfl
@[simp] theorem bitStep_vcause (b : Bit) (s : State) : (bitStep b s).vcause = s.vcause := rfl
@[simp] theorem bitStep_pending (b : Bit) (s : State) : (bitStep b s).pending = s.pending := rfl
@[simp] theorem bitStep_reads (b : Bit) (s : State) : (bitStep b s).reads = s.reads := rfl

/-! `raiseViolation` -/

@[simp] theorem raiseViolation_r (cause : ViolationCause) (s : State) : (raiseViolation cause s).r = s.r := rfl
@[simp] theorem raiseViolation_f (cause : ViolationCause) (s : State) : (raiseViolation cause s).f = s.f := rfl
@[simp] theorem raiseViolation_x (cause : ViolationCause) (s : State) : (raiseViolation cause s).x = s.x := rfl
@[simp] theorem raiseViolation_e (cause : ViolationCause) (s : State) : (raiseViolation cause s).e = s.e := rfl
@[simp] theorem raiseViolation_v (cause : ViolationCause) (s : State) : (raiseViolation cause s).v = s.v := rfl
@[simp] theorem raiseViolation_c1 (cause : ViolationCause) (s : State) : (raiseViolation cause s).c1 = s.c1 := rfl
@[simp] theorem raiseViolation_c11 (cause : ViolationCause) (s : State) : (raiseViolation cause s).c11 = s.c11 := rfl
@[simp] theorem raiseViolation_idx (cause : ViolationCause) (s : State) : (raiseViolation cause s).idx = s.idx := rfl
@[simp] theorem raiseViolation_last (cause : ViolationCause) (s : State) : (raiseViolation cause s).last = s.last := rfl
@[simp] theorem raiseViolation_first (cause : ViolationCause) (s : State) : (raiseViolation cause s).first = s.first := rfl
@[simp] theorem raiseViolation_viol (cause : ViolationCause) (s : State) : (raiseViolation cause s).viol = 1 := rfl
@[simp] theorem raiseViolation_vcause (cause : ViolationCause) (s : State) : (raiseViolation cause s).vcause = if s.viol = 0 then causeCode cause else s.vcause := rfl
@[simp] theorem raiseViolation_pending (cause : ViolationCause) (s : State) : (raiseViolation cause s).pending = s.pending := rfl
@[simp] theorem raiseViolation_reads (cause : ViolationCause) (s : State) : (raiseViolation cause s).reads = s.reads := rfl

/-! `setPending` -/

@[simp] theorem setPending_r (as : List HostAction) (s : State) : (setPending as s).r = s.r := rfl
@[simp] theorem setPending_f (as : List HostAction) (s : State) : (setPending as s).f = s.f := rfl
@[simp] theorem setPending_x (as : List HostAction) (s : State) : (setPending as s).x = s.x := rfl
@[simp] theorem setPending_e (as : List HostAction) (s : State) : (setPending as s).e = s.e := rfl
@[simp] theorem setPending_v (as : List HostAction) (s : State) : (setPending as s).v = s.v := rfl
@[simp] theorem setPending_c1 (as : List HostAction) (s : State) : (setPending as s).c1 = s.c1 := rfl
@[simp] theorem setPending_c11 (as : List HostAction) (s : State) : (setPending as s).c11 = s.c11 := rfl
@[simp] theorem setPending_idx (as : List HostAction) (s : State) : (setPending as s).idx = s.idx := rfl
@[simp] theorem setPending_last (as : List HostAction) (s : State) : (setPending as s).last = s.last := rfl
@[simp] theorem setPending_first (as : List HostAction) (s : State) : (setPending as s).first = s.first := rfl
@[simp] theorem setPending_viol (as : List HostAction) (s : State) : (setPending as s).viol = s.viol := rfl
@[simp] theorem setPending_vcause (as : List HostAction) (s : State) : (setPending as s).vcause = s.vcause := rfl
@[simp] theorem setPending_pending (as : List HostAction) (s : State) : (setPending as s).pending = as := rfl
@[simp] theorem setPending_reads (as : List HostAction) (s : State) : (setPending as s).reads = s.reads := rfl

/-! `recordRead` -/

@[simp] theorem recordRead_r (val : PortValue) (s : State) : (recordRead val s).r = s.r := rfl
@[simp] theorem recordRead_f (val : PortValue) (s : State) : (recordRead val s).f = s.f := rfl
@[simp] theorem recordRead_x (val : PortValue) (s : State) : (recordRead val s).x = s.x := rfl
@[simp] theorem recordRead_e (val : PortValue) (s : State) : (recordRead val s).e = s.e := rfl
@[simp] theorem recordRead_v (val : PortValue) (s : State) : (recordRead val s).v = s.v := rfl
@[simp] theorem recordRead_c1 (val : PortValue) (s : State) : (recordRead val s).c1 = s.c1 := rfl
@[simp] theorem recordRead_c11 (val : PortValue) (s : State) : (recordRead val s).c11 = s.c11 := rfl
@[simp] theorem recordRead_idx (val : PortValue) (s : State) : (recordRead val s).idx = s.idx := rfl
@[simp] theorem recordRead_last (val : PortValue) (s : State) : (recordRead val s).last = s.last := rfl
@[simp] theorem recordRead_first (val : PortValue) (s : State) : (recordRead val s).first = s.first := rfl
@[simp] theorem recordRead_viol (val : PortValue) (s : State) : (recordRead val s).viol = s.viol := rfl
@[simp] theorem recordRead_vcause (val : PortValue) (s : State) : (recordRead val s).vcause = s.vcause := rfl
@[simp] theorem recordRead_pending (val : PortValue) (s : State) : (recordRead val s).pending = s.pending := rfl
@[simp] theorem recordRead_reads (val : PortValue) (s : State) : (recordRead val s).reads = s.reads ++ [val] := rfl

/-! `applyReset` -/

@[simp] theorem applyReset_r (s : State) : (applyReset s).r = 0 := rfl
@[simp] theorem applyReset_f (s : State) : (applyReset s).f = 0 := rfl
@[simp] theorem applyReset_x (s : State) : (applyReset s).x = 0 := rfl
@[simp] theorem applyReset_e (s : State) : (applyReset s).e = 0 := rfl
@[simp] theorem applyReset_v (s : State) : (applyReset s).v = 0 := rfl
@[simp] theorem applyReset_c1 (s : State) : (applyReset s).c1 = 0 := rfl
@[simp] theorem applyReset_c11 (s : State) : (applyReset s).c11 = 0 := rfl
@[simp] theorem applyReset_idx (s : State) : (applyReset s).idx = 0 := rfl
@[simp] theorem applyReset_last (s : State) : (applyReset s).last = 0 := rfl
@[simp] theorem applyReset_first (s : State) : (applyReset s).first = 1 := rfl
@[simp] theorem applyReset_viol (s : State) : (applyReset s).viol = 0 := rfl
@[simp] theorem applyReset_vcause (s : State) : (applyReset s).vcause = 0 := rfl
@[simp] theorem applyReset_pending (s : State) : (applyReset s).pending = s.pending := rfl
@[simp] theorem applyReset_reads (s : State) : (applyReset s).reads = s.reads := rfl

/-! `bitSteps` changes the counter registers only. -/

@[simp] theorem bitSteps_r (bs : List Bit) (s : State) : (bitSteps bs s).r = s.r := by
  induction bs generalizing s with
  | nil => rfl
  | cons b bs ih => exact ih (bitStep b s)

@[simp] theorem bitSteps_f (bs : List Bit) (s : State) : (bitSteps bs s).f = s.f := by
  induction bs generalizing s with
  | nil => rfl
  | cons b bs ih => exact ih (bitStep b s)

@[simp] theorem bitSteps_x (bs : List Bit) (s : State) : (bitSteps bs s).x = s.x := by
  induction bs generalizing s with
  | nil => rfl
  | cons b bs ih => exact ih (bitStep b s)

@[simp] theorem bitSteps_e (bs : List Bit) (s : State) : (bitSteps bs s).e = s.e := by
  induction bs generalizing s with
  | nil => rfl
  | cons b bs ih => exact ih (bitStep b s)

@[simp] theorem bitSteps_v (bs : List Bit) (s : State) : (bitSteps bs s).v = s.v := by
  induction bs generalizing s with
  | nil => rfl
  | cons b bs ih => exact ih (bitStep b s)

@[simp] theorem bitSteps_viol (bs : List Bit) (s : State) : (bitSteps bs s).viol = s.viol := by
  induction bs generalizing s with
  | nil => rfl
  | cons b bs ih => exact ih (bitStep b s)

@[simp] theorem bitSteps_vcause (bs : List Bit) (s : State) : (bitSteps bs s).vcause = s.vcause := by
  induction bs generalizing s with
  | nil => rfl
  | cons b bs ih => exact ih (bitStep b s)

@[simp] theorem bitSteps_pending (bs : List Bit) (s : State) : (bitSteps bs s).pending = s.pending := by
  induction bs generalizing s with
  | nil => rfl
  | cons b bs ih => exact ih (bitStep b s)

@[simp] theorem bitSteps_reads (bs : List Bit) (s : State) : (bitSteps bs s).reads = s.reads := by
  induction bs generalizing s with
  | nil => rfl
  | cons b bs ih => exact ih (bitStep b s)

end Sys2Proof.Machine
end

