-- ==== Sys2Proof/Laws/Exec.lean ====
section
/-! SUPPORT. What a command, a host action and a step can do, said once: every command answers a next state, and that state is one of
these updates. -/

namespace Sys2Proof.Machine

open Sys2Proof.Safety

/-- The violation procedure is R161's, whatever the cause. -/
theorem raiseViolation_eq (cause : ViolationCause) (s : State) :
    raiseViolation cause s = afterViolation (causeCode cause) s := rfl

theorem idx_full_iff (s : State) : s.idx = fullBlock ↔ s.idx.toNat = 2304 := by
  rw [← BitVec.toNat_inj]
  rfl

/-- DONE is 1 exactly when IDX is 2304 (R31). -/
theorem done_eq (s : State) : done s = if s.idx.toNat = 2304 then 1 else 0 := by
  simp only [done, idx_full_iff]

theorem idx_late_iff (s : State) : lastByteStart < s.idx ↔ 2296 < s.idx.toNat := by
  rw [BitVec.lt_def]
  rfl

theorem execCntBit_full (b : Bit) (s : State) (h : s.idx.toNat = 2304) :
    execCntBit b s = .next (raiseViolation .blockOverrun s) := if_pos ((idx_full_iff s).mpr h)

theorem execCntBit_feeds (b : Bit) (s : State) (h : s.idx.toNat ≠ 2304) : execCntBit b s = .next (bitStep b s) :=
  if_neg fun hf => h ((idx_full_iff s).mp hf)

theorem execCntByte_late (v : BitVec 8) (s : State) (h : 2296 < s.idx.toNat) :
    execCntByte v s = .next (raiseViolation .blockOverrun s) := if_pos ((idx_late_iff s).mpr h)

theorem execCntByte_feeds (v : BitVec 8) (s : State) (h : s.idx.toNat ≤ 2296) :
    execCntByte v s = .next (bitSteps (byteBits v) s) :=
  if_neg fun hf => Nat.not_lt.mpr h ((idx_late_iff s).mp hf)

theorem execCntClassify_incomplete (s : State) (h : s.idx.toNat ≠ 2304) :
    execCntClassify s = .next (raiseViolation .blockIncomplete s) := by
  simp [execCntClassify, done_eq, h]

theorem execCntClassify_complete (s : State) (h : s.idx.toNat = 2304) :
    execCntClassify s = .next (writeVerdict (poly (zext17 s.c1) (zext17 s.c11)) s) := by
  simp [execCntClassify, done_eq, h]

/-- Feeding bits does not look at the violation record, nor at the host's side. -/
theorem bitSteps_withRecord (bs : List Bit) (viol : Bit) (vcause : BitVec 2) (s : State) :
    bitSteps bs (withRecord viol vcause s) = withRecord viol vcause (bitSteps bs s) := by
  induction bs generalizing s with
  | nil => rfl
  | cons b bs ih => exact ih (bitStep b s)

theorem bitSteps_withHostSide (bs : List Bit) (as : List HostAction) (rs : List PortValue) (s : State) :
    bitSteps bs (withHostSide as rs s) = withHostSide as rs (bitSteps bs s) := by
  induction bs generalizing s with
  | nil => rfl
  | cons b bs ih => exact ih (bitStep b s)

/-- Feeding bits looks at the counter registers alone, and writes no other. -/
theorem bitSteps_withCounterOf (bs : List Bit) (u s : State) :
    bitSteps bs (withCounterOf u s) = withCounterOf (bitSteps bs u) s := by
  induction bs generalizing u with
  | nil => rfl
  | cons b bs ih => exact ih (bitStep b u)

theorem wordBits_of_decode {w : Command} {i : Instr} (h : decode w = .ok i) : wordBits w = fedBits i := by
  rw [wordBits, h]

theorem wordBits_illegal (w : Command) (h : rsvField w ≠ 0) : wordBits w = [] := by
  rw [wordBits, decode_illegal w h]

/-- Everything a command can do (R58): the state it answers is one of these. -/
inductive Effect (i : Instr) (s : State) : State → Prop where
  | same : i = .nop → Effect i s s
  | arithmetic (val : Fixed17) : writesR i = true → Effect i s (writeR val s)
  | compare (val : Bit) (a b : Fixed17) : i = .lt a b ∨ i = .gt a b → Effect i s (writeF val s)
  | extend (a : Fixed17) : i = .sext a → Effect i s (writeX (sext32 a) s)
  | classify (c1 c11 : Fixed17) : i = .classify c1 c11 ∨ i = .cntClassify ∧ raisedBy i s = none →
      Effect i s (writeVerdict (poly c1 c11) s)
  | clear : i = .cntClear → Effect i s (clearCounter s)
  | bit (b : Bit) : i = .cntBit b → s.idx.toNat ≠ 2304 → Effect i s (bitStep b s)
  | byte (v : BitVec 8) : i = .cntByte v → s.idx.toNat ≤ 2296 → Effect i s (bitSteps (byteBits v) s)
  | violation (cause : ViolationCause) : raisedBy i s = some cause → Effect i s (raiseViolation cause s)

theorem exec_answers (i : Instr) (s : State) : ∃ t, exec i s = .next t ∧ Effect i s t := by
  cases i with
  | nop => exact ⟨_, rfl, .same rfl⟩
  | add a b => exact ⟨_, rfl, .arithmetic _ rfl⟩
  | sub a b => exact ⟨_, rfl, .arithmetic _ rfl⟩
  | mul2 a => exact ⟨_, rfl, .arithmetic _ rfl⟩
  | mul5 a => exact ⟨_, rfl, .arithmetic _ rfl⟩
  | mul10 a => exact ⟨_, rfl, .arithmetic _ rfl⟩
  | mul15 a => exact ⟨_, rfl, .arithmetic _ rfl⟩
  | mul20 a => exact ⟨_, rfl, .arithmetic _ rfl⟩
  | lt a b => exact ⟨_, rfl, .compare _ a b (.inl rfl)⟩
  | gt a b => exact ⟨_, rfl, .compare _ a b (.inr rfl)⟩
  | sext a => exact ⟨_, rfl, .extend a rfl⟩
  | classify c1 c11 => exact ⟨_, rfl, .classify c1 c11 (.inl rfl)⟩
  | cntClear => exact ⟨_, rfl, .clear rfl⟩
  | cntBit b =>
    by_cases h : s.idx.toNat = 2304
    · exact ⟨_, execCntBit_full b s h, .violation .blockOverrun (by simp [raisedBy, h])⟩
    · exact ⟨_, execCntBit_feeds b s h, .bit b rfl h⟩
  | cntByte v =>
    by_cases h : 2296 < s.idx.toNat
    · exact ⟨_, execCntByte_late v s h, .violation .blockOverrun (by simp [raisedBy, h])⟩
    · exact ⟨_, execCntByte_feeds v s (by omega), .byte v rfl (by omega)⟩
  | cntClassify =>
    by_cases h : s.idx.toNat = 2304
    · exact ⟨_, execCntClassify_complete s h, .classify _ _ (.inr ⟨rfl, by simp [raisedBy, h]⟩)⟩
    · exact ⟨_, execCntClassify_incomplete s h, .violation .blockIncomplete (by simp [raisedBy, h])⟩

theorem exec_effect {i : Instr} {s t : State} (h : exec i s = .next t) : Effect i s t := by
  obtain ⟨u, hu, he⟩ := exec_answers i s
  rw [hu] at h
  cases h
  exact he

theorem perform_legal (w : Command) (s : State) (h : rsvField w = 0) : perform w s = exec (decodeOp w) s := by
  rw [perform, decode_legal w h]

theorem perform_illegal (w : Command) (s : State) (h : rsvField w ≠ 0) :
    perform w s = .next (raiseViolation .rsvNonzero s) := by
  rw [perform, decode_illegal w h]
  rfl

theorem perform_of_decode {w : Command} {i : Instr} (h : decode w = .ok i) (s : State) : perform w s = exec i s := by
  rw [perform, h]

/-- Everything a command word can do: an illegal word records Violation(1), a legal one has its command's effect. -/
theorem perform_cases {w : Command} {s t : State} (h : perform w s = .next t) :
    (rsvField w ≠ 0 ∧ t = raiseViolation .rsvNonzero s) ∨ (rsvField w = 0 ∧ Effect (decodeOp w) s t) := by
  by_cases hr : rsvField w = 0
  · exact .inr ⟨hr, exec_effect (by rwa [perform_legal w s hr] at h)⟩
  · rw [perform_illegal w s hr] at h
    cases h
    exact .inl ⟨hr, rfl⟩

/-- Everything one action of the host can do. -/
theorem performAction_cases {a : HostAction} {s t : State} (h : performAction a s = .next t) :
    (∃ w, a = .command w ∧ perform w s = .next t) ∨
    (∃ p val, a = .readPort p ∧ portValue p s = some val ∧ t = recordRead val s) ∨
    (a = .reset ∧ t = applyReset s) := by
  cases a with
  | command w => exact .inl ⟨w, rfl, h⟩
  | readPort p =>
    simp only [performAction, readPort] at h
    split at h
    · rename_i val hv
      cases h
      exact .inr (.inl ⟨p, val, rfl, hv, rfl⟩)
    · cases h
  | reset =>
    cases h
    exact .inr (.inr ⟨rfl, rfl⟩)

/-- Everything a step can do. -/
theorem step_cases {s t : State} (h : step s = .next t) :
    (s.pending = [] ∧ t = s) ∨
    ∃ a rest, s.pending = a :: rest ∧ performAction a (setPending rest s) = .next t := by
  unfold step at h
  split at h
  · rename_i hp
    cases h
    exact .inl ⟨hp, rfl⟩
  · rename_i a rest hp
    exact .inr ⟨a, rest, hp, h⟩

/-- A property of the core that commands keep, and that reads, reset and the host's list do not touch, is kept by a step. -/
theorem step_keeps {P : State → Prop} (hraise : ∀ c s, P s → P (raiseViolation c s))
    (hexec : ∀ i s t, P s → Effect i s t → P t) (hread : ∀ val s, P s → P (recordRead val s))
    (hreset : ∀ s, P (applyReset s)) (hpend : ∀ as s, P s → P (setPending as s))
    {s t : State} (hs : P s) (h : step s = .next t) : P t := by
  rcases step_cases h with ⟨-, rfl⟩ | ⟨a, rest, -, ha⟩
  · exact hs
  · rcases performAction_cases ha with ⟨w, -, hw⟩ | ⟨p, val, -, -, rfl⟩ | ⟨-, rfl⟩
    · rcases perform_cases hw with ⟨-, rfl⟩ | ⟨-, he⟩
      · exact hraise _ _ (hpend _ _ hs)
      · exact hexec _ _ _ (hpend _ _ hs) he
    · exact hread _ _ (hpend _ _ hs)
    · exact hreset _

/-- One more step of a run, when it answers a next state. -/
theorem run_succ (M : Host.Core) (k : Nat) (s t : M.State) (h : M.step s = .next t) : M.run (k + 1) s = M.run k t := by
  simp [Host.Core.run, h]

end Sys2Proof.Machine
end

