-- ==== Sys2Proof/Laws/PerInstr.lean ====
section
/-! SUPPORT. One lemma per command: its canonical word has RSV 0 and the OP of its row. -/

namespace Sys2Proof.Laws.CanonicalWord

/-- The OP that selects a command (spec/30_encoding.md R52). -/
def opcode : Instr → BitVec 4
  | .nop => 0x0
  | .add _ _ => 0x1
  | .sub _ _ => 0x2
  | .mul2 _ => 0x3
  | .mul5 _ => 0x4
  | .mul10 _ => 0x5
  | .mul15 _ => 0x6
  | .mul20 _ => 0x7
  | .lt _ _ => 0x8
  | .gt _ _ => 0x9
  | .sext _ => 0xA
  | .classify _ _ => 0xB
  | .cntClear => 0xC
  | .cntBit _ => 0xD
  | .cntByte _ => 0xE
  | .cntClassify => 0xF

/-- The canonical word of a command matches the command's row and no other. -/
def Statement (i : Instr) : Prop := rsvField (encode i) = 0 ∧ opField (encode i) = opcode i

theorem nop : Statement .nop := ⟨rsvField_packWord _ _ _, opField_packWord _ _ _⟩
theorem add (a b : Fixed17) : Statement (.add a b) := ⟨rsvField_packWord _ _ _, opField_packWord _ _ _⟩
theorem sub (a b : Fixed17) : Statement (.sub a b) := ⟨rsvField_packWord _ _ _, opField_packWord _ _ _⟩
theorem mul2 (a : Fixed17) : Statement (.mul2 a) := ⟨rsvField_packWord _ _ _, opField_packWord _ _ _⟩
theorem mul5 (a : Fixed17) : Statement (.mul5 a) := ⟨rsvField_packWord _ _ _, opField_packWord _ _ _⟩
theorem mul10 (a : Fixed17) : Statement (.mul10 a) := ⟨rsvField_packWord _ _ _, opField_packWord _ _ _⟩
theorem mul15 (a : Fixed17) : Statement (.mul15 a) := ⟨rsvField_packWord _ _ _, opField_packWord _ _ _⟩
theorem mul20 (a : Fixed17) : Statement (.mul20 a) := ⟨rsvField_packWord _ _ _, opField_packWord _ _ _⟩
theorem lt (a b : Fixed17) : Statement (.lt a b) := ⟨rsvField_packWord _ _ _, opField_packWord _ _ _⟩
theorem gt (a b : Fixed17) : Statement (.gt a b) := ⟨rsvField_packWord _ _ _, opField_packWord _ _ _⟩
theorem sext (a : Fixed17) : Statement (.sext a) := ⟨rsvField_packWord _ _ _, opField_packWord _ _ _⟩
theorem classify (a b : Fixed17) : Statement (.classify a b) := ⟨rsvField_packWord _ _ _, opField_packWord _ _ _⟩
theorem cntClear : Statement .cntClear := ⟨rsvField_packWord _ _ _, opField_packWord _ _ _⟩
theorem cntBit (b : Bit) : Statement (.cntBit b) := ⟨rsvField_packWord _ _ _, opField_packWord _ _ _⟩
theorem cntByte (v : BitVec 8) : Statement (.cntByte v) := ⟨rsvField_packWord _ _ _, opField_packWord _ _ _⟩
theorem cntClassify : Statement .cntClassify := ⟨rsvField_packWord _ _ _, opField_packWord _ _ _⟩

end Sys2Proof.Laws.CanonicalWord
end

