-- ==== Sys2Proof/Laws/Text.lean ====
section
/-! SUPPORT. The text layer, one lemma per function: what a run of letters is to the tokeniser, and that hexadecimal digits read back
as the number they were written from. -/

namespace Sys2Proof.Machine

/-- A hexadecimal digit is a letter of a word and reads back as its value. -/
theorem hexDigit_reads_back (d : Nat) (h : d < 16) :
    charClass (hexDigit d) = .letter ∧ hexDigitValue (hexDigit d) = some d := by
  revert d
  decide

/-- Letters join the word read so far. -/
theorem tokensFrom_letters (cs : Text) (h : ∀ c ∈ cs, charClass c = .letter) (acc rest : Text) :
    tokensFrom false acc (cs ++ rest) = tokensFrom false (acc ++ cs) rest := by
  induction cs generalizing acc with
  | nil => simp
  | cons c cs ih =>
    rw [List.cons_append, tokensFrom, h c (List.mem_cons_self ..)]
    simp only
    rw [ih fun x hx => h x (List.mem_cons_of_mem _ hx)]
    simp

theorem pushWord_nonempty (acc : Text) (h : acc ≠ []) (ts : List Token) : pushWord acc ts = .word acc :: ts := by
  cases acc with
  | nil => exact absurd rfl h
  | cons => rfl

theorem hexDigits_letters (k n : Nat) : ∀ c ∈ hexDigits k n, charClass c = .letter := by
  induction k generalizing n with
  | zero => intro c hc; cases hc
  | succ k ih =>
    intro c hc
    rw [hexDigits, List.mem_append] at hc
    rcases hc with hc | hc
    · exact ih _ c hc
    · rw [List.mem_singleton.mp hc]
      exact (hexDigit_reads_back _ (Nat.mod_lt _ (by omega))).1

theorem hexDigits_length (k n : Nat) : (hexDigits k n).length = k := by
  induction k generalizing n with
  | zero => rfl
  | succ k ih => simp [hexDigits, ih]

theorem digitsValue_append (digit : Char → Option Nat) (base n m : Nat) (xs ys : Text)
    (h : digitsValue digit base n xs = some m) :
    digitsValue digit base n (xs ++ ys) = digitsValue digit base m ys := by
  induction xs generalizing n with
  | nil =>
    cases h
    rfl
  | cons x xs ih =>
    rw [digitsValue] at h
    rw [List.cons_append, digitsValue]
    cases hd : digit x with
    | none => rw [hd] at h; cases h
    | some d => rw [hd] at h; exact ih _ h

/-- k digits spell every number below 16^k. -/
theorem hexDigits_read_back (k n : Nat) (h : n < 16 ^ k) : digitsValue hexDigitValue 16 0 (hexDigits k n) = some n := by
  induction k generalizing n with
  | zero =>
    simp at h
    subst h
    rfl
  | succ k ih =>
    have hk : n / 16 < 16 ^ k := by
      rw [Nat.pow_succ] at h
      omega
    rw [hexDigits, digitsValue_append _ _ _ _ _ _ (ih (n / 16) hk), digitsValue,
      (hexDigit_reads_back _ (Nat.mod_lt n (by omega))).2]
    simp only [digitsValue]
    congr 1
    omega

/-- A printed hexadecimal numeral parses to the number it was printed from. -/
theorem parseNumeral_hexText (k n : Nat) (hk : 0 < k) (h : n < 16 ^ k) : parseNumeral (hexText k n) = some (.hex k n) := by
  obtain ⟨d, ds, hd⟩ : ∃ d ds, hexDigits k n = d :: ds := by
    cases hh : hexDigits k n with
    | nil =>
      have := hexDigits_length k n
      rw [hh] at this
      simp at this
      omega
    | cons d ds => exact ⟨d, ds, rfl⟩
  rw [hexText, hd]
  show (digitsValue hexDigitValue 16 0 (d :: ds)).map (Numeral.hex (d :: ds).length) = _
  rw [← hd, hexDigits_read_back k n h, hexDigits_length]
  rfl

theorem mnemonicText_letters (m : Mnemonic) : ∀ c ∈ mnemonicText m, charClass c = .letter := by
  have h : ((mnemonicText m).all fun c => decide (charClass c = .letter)) = true := by cases m <;> rfl
  intro c hc
  exact of_decide_eq_true (List.all_eq_true.mp h c hc)

/-- No two mnemonics are spelled alike. -/
theorem parseMnemonic_mnemonicText (m : Mnemonic) : parseMnemonic (mnemonicText m) = some m := by cases m <;> decide

theorem mnemonicText_ne (m : Mnemonic) :
    mnemonicText m ≠ wordDirective ∧ mnemonicText m ≠ repeatKeyword ∧ mnemonicText m ≠ [] := by cases m <;> decide

end Sys2Proof.Machine
end

