-- ==== Sys2Proof/Tests/Slice0.lean ====
section
/-! SUPPORT. The model's own tests. Expected values are the spec's: the vectors V-… and the programs P… of spec/95_test_vectors.md, or
the corner cases of the rule named. Then one witness for each statement that has hypotheses. -/

namespace Sys2Proof.Tests

open Sys2Proof.Machine Sys2Proof.Safety

/-- The next state, when there is one. -/
def nextOf (o : Host.Outcome State Fault Refusal) : Option State :=
  match o with
  | .next t => some t
  | .fault _ => none
  | .refused _ => none

/-- The refusal, when there is one. -/
def refusalOf (o : Host.Outcome State Fault Refusal) : Option Refusal :=
  match o with
  | .next _ => none
  | .fault _ => none
  | .refused reason => some reason

/-- A state whose block holds `n` bits, the last of them 0. -/
def atBit (n : Count) : State := { State.reset with idx := n, first := 0 }

/-- The hard-wired operands are the parameters N and N1 of R6 and the multiples of N1 that R110 lists, and the literals are
what the doubling chain computes. -/
theorem test_constants_are_the_parameters :
    fullBlock.toNat = Config.blockBits ∧ lastByteStart.toNat = Config.blockBits - 8 ∧
    k1 = mask17 Config.countedBits ∧ k2 = dblk k1 1 ∧ k4 = dblk k1 2 ∧ k4 = mask17 (4 * Config.countedBits) := by decide

/-! ### Decoding: every constructor by a word of V-ENC -/

theorem test_decode_nop : decodeTableWord 40 0x0000000000 = some .nop := by decide
theorem test_decode_add : decodeTableWord 40 0x0000600051 = some (.add 0x00005 0x00003) := by decide
theorem test_decode_sub : decodeTableWord 40 0x0000A00032 = some (.sub 0x00003 0x00005) := by decide
theorem test_decode_mul2 : decodeTableWord 40 0x0000008FF3 = some (.mul2 0x008FF) := by decide
theorem test_decode_mul5 : decodeTableWord 40 0x0000008FF4 = some (.mul5 0x008FF) := by decide
theorem test_decode_mul10 : decodeTableWord 40 0x0000008FF5 = some (.mul10 0x008FF) := by decide
theorem test_decode_mul15 : decodeTableWord 40 0x0000008FF6 = some (.mul15 0x008FF) := by decide
theorem test_decode_mul20 : decodeTableWord 40 0x0000008FF7 = some (.mul20 0x008FF) := by decide
theorem test_decode_lt : decodeTableWord 40 0x06C0821C08 = some (.lt 0x021C0 0x03604) := by decide
theorem test_decode_gt : decodeTableWord 40 0x2000000009 = some (.gt 0 0x10000) := by decide
theorem test_decode_sext : decodeTableWord 40 0x00001FFFEA = some (.sext 0x1FFFE) := by decide
theorem test_decode_classify : decodeTableWord 40 0x004800480B = some (.classify 0x00480 0x00240) := by decide
theorem test_decode_cntClear : decodeTableWord 40 0x000000000C = some .cntClear := by decide
theorem test_decode_cntBit : decodeTableWord 40 0x000000001D = some (.cntBit 1) := by decide
theorem test_decode_cntByte : decodeTableWord 40 0x0000000AAE = some (.cntByte 0xAA) := by decide
theorem test_decode_cntClassify : decodeTableWord 40 0x000000000F = some .cntClassify := by decide

/-- V-ENC-21: ignored bits set, a legal CNT_BIT 0. -/
theorem test_decode_ignored_bits : decodeTableWord 40 0x3FFFFFFFED = some (.cntBit 0) := by decide

/-- V-ENC-20 and V-ENC-22: RSV = 3 and RSV = 2. -/
theorem test_decode_illegal : decodeTableWord 40 0xFFFFFFFFED = none ∧ decodeTableWord 40 0x8000400011 = none := by decide

/-- The words of V-ENC-2, 9, 16 and 17 are the canonical ones. -/
theorem test_encode_words :
    encode (.add 5 3) = 0x0000600051 ∧ encode (.lt 8640 13828) = 0x06C0821C08 ∧
      encode (.cntBit 1) = 0x000000001D ∧ encode (.cntByte 0xAA) = 0x0000000AAE := by decide

/-! ### WellFormed: an ill-formed term for each check, refused -/

theorem test_count_add_one_operand : (SourceCommand.op .add [.dec 1]).countOk = false := by decide
theorem test_count_nop_with_operand : (SourceCommand.op .nop [.dec 1]).countOk = false := by decide
theorem test_count_feedBytes_none : (SourceCommand.op .feedBytes []).countOk = false := by decide
theorem test_range_fixed_too_big : (SourceCommand.op .mul2 [.dec 131072]).rangesOk = false := by decide
theorem test_range_fixed_too_small : (SourceCommand.op .mul2 [.dec (-65537)]).rangesOk = false := by decide
theorem test_range_bit : (SourceCommand.op .cntBit [.dec 2]).rangesOk = false := by decide
theorem test_range_bit_hex : (SourceCommand.op .cntBit [.hex 1 1]).rangesOk = false := by decide
theorem test_range_byte : (SourceCommand.op .feedBytes [.dec 1, .dec 256]).rangesOk = false := by decide
theorem test_word_nine_digits : (SourceCommand.word (.hex 9 0)).wordOk = false := by decide
theorem test_word_decimal : (SourceCommand.word (.dec 0)).wordOk = false := by decide
theorem test_ill_formed_in_repeat :
    (SourceProgram.repeated 2 (.command (.op .add []) .done) .done).wellFormed = false := by decide

/-! ### The arithmetic unit (V-ADD, V-SUB, V-MUL, V-CMP, V-SEXT) -/

theorem test_add_wraps : (nextOf (exec (.add 0x0FFFF 0x00001) State.reset)).map State.r = some 0x10000 := by decide
theorem test_add_same_operand : (nextOf (exec (.add 0x1FFFF 0x1FFFF) State.reset)).map State.r = some 0x1FFFE := by decide
theorem test_sub_order : (nextOf (exec (.sub 0x00003 0x00005) State.reset)).map State.r = some 0x1FFFE := by decide
theorem test_sub_wraps : (nextOf (exec (.sub 0x10000 0x00001) State.reset)).map State.r = some 0x0FFFF := by decide
theorem test_mul2_holds_sign : (nextOf (exec (.mul2 0x17FFF) State.reset)).map State.r = some 0x1FFFE := by decide
theorem test_mul2_becomes_negative : (nextOf (exec (.mul2 0x0C000) State.reset)).map State.r = some 0x18000 := by decide
theorem test_mul5_each_step_masks : (nextOf (exec (.mul5 0x08000) State.reset)).map State.r = some 0x18000 := by decide
theorem test_mul5_minimum : (nextOf (exec (.mul5 0x10000) State.reset)).map State.r = some 0x00000 := by decide
theorem test_mul10_one_term_off : (nextOf (exec (.mul10 0x0C000) State.reset)).map State.r = some 0x08000 := by decide
theorem test_mul10_plain : (nextOf (exec (.mul10 0x008FF) State.reset)).map State.r = some 0x059F6 := by decide
theorem test_mul15_off : (nextOf (exec (.mul15 0x02000) State.reset)).map State.r = some 0x0E000 := by decide
theorem test_mul15_negative : (nextOf (exec (.mul15 0x1FFFF) State.reset)).map State.r = some 0x1FFF1 := by decide
theorem test_mul20_off : (nextOf (exec (.mul20 0x02000) State.reset)).map State.r = some 0x18000 := by decide
theorem test_mul20_plain : (nextOf (exec (.mul20 0x00FFF) State.reset)).map State.r = some 0x13FEC := by decide
theorem test_lt_wraps : (nextOf (exec (.lt 0x0FFFF 0x10000) State.reset)).map State.f = some 1 := by decide
theorem test_lt_half : (nextOf (exec (.lt 0x08000 0x18000) State.reset)).map State.f = some 1 := by decide
theorem test_gt_equal : (nextOf (exec (.gt 0x00005 0x00005) State.reset)).map State.f = some 1 := by decide
theorem test_gt_minimum : (nextOf (exec (.gt 0 0x10000) State.reset)).map State.f = some 0 := by decide
theorem test_sext_negative : (nextOf (exec (.sext 0x18000) State.reset)).map State.x = some 0xFFFF8000 := by decide
theorem test_sext_positive : (nextOf (exec (.sext 0x0FFFF) State.reset)).map State.x = some 0x0000FFFF := by decide

/-! ### The polygon (V-CLS) -/

theorem test_classify_edge_dc : poly 1500 697 = (0b1111, 1) ∧ poly 1500 696 = (0b1011, 0) := by decide
theorem test_classify_out_of_contract : poly 3738 0 = (0b0010, 0) ∧ poly 0x10000 0 = (0b1010, 0) := by decide

/-- V-BLK-2, the all-one block: E = 1101, V = 0 (C1). -/
theorem test_cntClassify_all_ones :
    (nextOf (exec .cntClassify { atBit 2304 with c1 := 2303, c11 := 2303, last := 1 })).map (fun t => (t.e, t.v, t.viol)) =
      some (0b1101, 0, 0) := by decide

/-- V-VIO-3's last step: 2303 bits are not a block. -/
theorem test_cntClassify_incomplete :
    (nextOf (exec .cntClassify (atBit 2303))).map (fun t => (t.viol, t.vcause, t.e)) = some (1, 3, 0) := by decide

/-! ### The counter (V-CNT, V-VIO) -/

theorem test_cntClear_keeps_violation :
    (nextOf (exec .cntClear { atBit 2304 with viol := 1, vcause := 2, c1 := 5 })).map
      (fun t => (t.c1, t.idx, t.first, t.viol, t.vcause)) = some (0, 0, 1, 1, 2) := by decide

/-- V-CNT-8. -/
theorem test_cntBit_first_is_uncounted :
    (nextOf (exec (.cntBit 1) State.reset)).map (fun t => (t.c1, t.c11, t.idx, t.last, t.first)) = some (0, 0, 1, 1, 0) := by
  decide

/-- V-VIO-6: an overrun changes no counter register. -/
theorem test_cntBit_overrun :
    (nextOf (exec (.cntBit 1) (atBit 2304))).map (fun t => (t.idx, t.last, t.viol, t.vcause)) = some (2304, 0, 1, 2) := by
  decide

/-- V-CNT-12. -/
theorem test_cntByte_lsb_first :
    (nextOf (exec (.cntByte 0xC0) State.reset)).map (fun t => (t.c1, t.c11, t.idx, t.last)) = some (2, 1, 8, 1) := by decide

/-- V-VIO-4's last step: CNT_BYTE at 2300 consumes nothing. -/
theorem test_cntByte_all_or_nothing :
    (nextOf (exec (.cntByte 0xFF) (atBit 2300))).map (fun t => (t.idx, t.c1, t.viol, t.vcause)) = some (2300, 0, 1, 2) := by
  decide

/-! ### Steps, ports, violations -/

/-- V-VIO-1: RSV before the command's own check. -/
theorem test_step_illegal_word :
    nextOf (step (State.reset.withFetchWord 40 0x400000000F)) = some { State.reset with viol := 1, vcause := 1 } := by decide

/-- V-VIO-8's first step: the first cause is kept. -/
theorem test_step_first_cause_kept :
    (nextOf (step ({ State.reset with viol := 1, vcause := 3 }.withFetchWord 40 0x4000000000))).map State.vcause = some 3 := by
  decide

theorem test_step_runs_table_word :
    nextOf (step (State.reset.withFetchWord 40 0x0000600051)) = some { State.reset with r := 8 } := by decide

/-- P3's end state reads STATUS = 0x001A. -/
theorem test_read_status :
    (nextOf (step { State.reset with viol := 1, vcause := 2, pending := [.readPort 8] })).map State.reads =
      some [.status 0x001A] := by decide

theorem test_read_port_nine :
    refusalOf (step { State.reset with pending := [.readPort 9] }) = some (.noSuchPort 9) := by decide

theorem test_reset_action :
    (nextOf (step { atBit 7 with r := 5, viol := 1, vcause := 1, pending := [.reset, .readPort 0] })).map
      (fun t => (t.r, t.idx, t.first, t.viol, t.pending)) = some (0, 0, 1, 0, [.readPort 0]) := by decide

theorem test_status_after_reset : status State.reset = 0x0010 := by decide

/-! ### The assembler and the disassembler (V-ENC, P3) -/

theorem test_disassemble_operands : String.ofList (disassemble 0x0000600051) = "ADD 0x00005, 0x00003" := by decide
theorem test_disassemble_ignored_bits : String.ofList (disassemble 0x3FFFFFFFED) = "CNT_BIT 0" := by decide
theorem test_disassemble_illegal :
    String.ofList (disassemble 0x8000400011) = ".word 0x8000400011 ; illegal: RSV" := by decide

/-- V-ENC-19: three spellings of one operand. -/
theorem test_assemble_minus_one :
    assembleText "ADD -1, 0".toList = some [0x00001FFFF1] ∧ assembleText "ADD 131071, 0".toList = some [0x00001FFFF1] ∧
      assembleText "ADD 0x1FFFF, 0".toList = some [0x00001FFFF1] := by decide

/-- P3 with its repeat count 2: labels and comments emit nothing. -/
theorem test_assemble_repeat :
    assembleText ("again: repeat 2 ".toList ++ [Char.ofNat 123] ++ " CNT_BYTE 0xAA ".toList ++ [Char.ofNat 125] ++
      " ; each\n CNT_CLASSIFY".toList) = some [0x0000000AAE, 0x0000000AAE, 0x000000000F] := by decide

theorem test_assemble_out_of_range : assembleText "MUL2 131072".toList = none := by decide

/-! ### Witnesses: for each statement with hypotheses, inputs that meet them -/

/-- EncodeOfDecodeClearsIgnoredBits, PerformIsTotal, OnlyReservedBitsAreIllegal, DisassemblyReassembles: words on both sides of
2^38. -/
theorem witness_word_bounds :
    decode 0x3FFFFFFFED = .ok (.cntBit 0) ∧ (0x3FFFFFFFFF : Command).toNat < 2 ^ 38 ∧
      2 ^ 38 ≤ (0x4000000000 : Command).toNat ∧ decode 0x4000000000 = .error .rsvNonzero := by
  refine ⟨rfl, by decide, by decide, rfl⟩

/-- MatchedWordsDecodeToTheirRow, and the decoding clause of each command's statement: a word of every row, ignored bits set. -/
theorem witness_matched_words :
    ((0x3FFFFFFFF0 : Command) &&& 0xC00000000F = 0x0) ∧ ((0x3FFFFFFFF1 : Command) &&& 0xC00000000F = 0x1) ∧
    ((0x3FFFFFFFF2 : Command) &&& 0xC00000000F = 0x2) ∧ ((0x3FFFFFFFF3 : Command) &&& 0xC00000000F = 0x3) ∧
    ((0x3FFFFFFFF4 : Command) &&& 0xC00000000F = 0x4) ∧ ((0x3FFFFFFFF5 : Command) &&& 0xC00000000F = 0x5) ∧
    ((0x3FFFFFFFF6 : Command) &&& 0xC00000000F = 0x6) ∧ ((0x3FFFFFFFF7 : Command) &&& 0xC00000000F = 0x7) ∧
    ((0x3FFFFFFFF8 : Command) &&& 0xC00000000F = 0x8) ∧ ((0x3FFFFFFFF9 : Command) &&& 0xC00000000F = 0x9) ∧
    ((0x3FFFFFFFFA : Command) &&& 0xC00000000F = 0xA) ∧ ((0x3FFFFFFFFB : Command) &&& 0xC00000000F = 0xB) ∧
    ((0x3FFFFFFFFC : Command) &&& 0xC00000000F = 0xC) ∧ ((0x3FFFFFFFFD : Command) &&& 0xC00000000F = 0xD) ∧
    ((0x3FFFFFFFFE : Command) &&& 0xC00000000F = 0xE) ∧ ((0x3FFFFFFFFF : Command) &&& 0xC00000000F = 0xF) := by decide

theorem witness_IgnoredBitsHaveNoEffect :
    (0x3FFFFFFFF0 : Command) &&& usedBits 0x3FFFFFFFF0 = 0x0000000000 &&& usedBits 0x3FFFFFFFF0 := by decide

theorem witness_StepRunsDecodedCommand :
    ({ State.reset with pending := [.command 0x51, .reset] } : State).pending = .command 0x51 :: [.reset] ∧
      decode 0x51 = .ok (.add 5 0) ∧
      ({ State.reset with pending := [.command 0x8000000000] } : State).pending = .command 0x8000000000 :: [] ∧
      decode 0x8000000000 = .error .rsvNonzero := ⟨rfl, rfl, rfl, rfl⟩

theorem witness_FetchWordRunsNext : decode (BitVec.ofNat 40 0x51) = .ok (.add 5 0) := rfl

/-- PortReadsReturnTheRegister: the first port, the last, and the first that does not exist. -/
theorem witness_PortReadsReturnTheRegister :
    ({ State.reset with pending := [.readPort 0] } : State).pending = .readPort 0 :: [] ∧
      ({ State.reset with pending := [.readPort 8] } : State).pending = .readPort 8 :: [] ∧
      ({ State.reset with pending := [.readPort 9] } : State).pending = .readPort 9 :: [] ∧
      PortValue.status 0x0010 = .status (status State.reset) := by decide

theorem witness_StepWithResetPending :
    ({ atBit 9 with pending := [.reset, .readPort 0] } : State).pending = .reset :: [.readPort 0] := by decide

theorem witness_IdleChangesNothing : State.reset.pending = [] := rfl

/-- ClearAfterResetChangesNothing, CommandsIgnoreTheHostSide, ViolationsAreExactlyTheThree (no violation, and one),
OnlyTheListedCommandsWrite, ViolationIsStickyAndChangesNoMeaning: a command that answers. -/
theorem witness_commands_answer :
    exec .cntClear (atBit 9) = .next State.reset ∧ exec (.add 5 3) State.reset = .next { State.reset with r := 8 } ∧
      raisedBy (.add 5 3) State.reset = none ∧ raisedBy .cntClassify State.reset = some .blockIncomplete ∧
      exec .cntClassify State.reset = .next { State.reset with viol := 1, vcause := 3 } ∧
      perform 0x0000600051 State.reset = .next { State.reset with r := 8 } := ⟨rfl, rfl, rfl, rfl, rfl, rfl⟩

/-- OnlyTheListedCommandsWrite: ADD meets every side condition but R's, SEXT meets R's. -/
theorem witness_OnlyTheListedCommandsWrite :
    writesR (.sext 1) = false ∧ (∀ a b, Instr.add 5 3 ≠ .lt a b) ∧ (∀ a b, Instr.add 5 3 ≠ .gt a b) ∧
      (∀ a, Instr.add 5 3 ≠ .sext a) ∧ (∀ a b, Instr.add 5 3 ≠ .classify a b) ∧ Instr.add 5 3 ≠ .cntClassify ∧
      Instr.add 5 3 ≠ .cntClear ∧ fedBits (.add 5 3) = [] := by
  refine ⟨rfl, ?_, ?_, ?_, ?_, ?_, ?_, rfl⟩ <;> intros <;> exact Instr.noConfusion

theorem witness_DoubleChainClosedForm :
    (0x0FFFF : Fixed17).getLsbD 16 = false ∧ (0x10000 : Fixed17).getLsbD 16 = true ∧ 4 ≤ 4 := by decide

theorem witness_ChainIsModularUnlessMismatch :
    Mism 0x17FFF 1 ∧ ¬ Mism 0x18000 1 ∧ Mism 0x02000 4 ∧ s17 0x18000 = -32768 := by
  refine ⟨?_, ?_, ?_, by decide⟩ <;> unfold Mism <;> decide

theorem witness_MultipliesEqualProductExactlyWhen :
    s17 0x18000 = -32768 ∧ s17 0x1C000 = -16384 ∧ s17 0x03FFF = 16383 ∧ s17 0x1E000 = -8192 ∧ s17 0x01FFF = 8191 ∧
      s17 0x1F000 = -4096 ∧ s17 0x00FFF = 4095 := by decide

/-- AddSubLaws: sums below, inside and above the range. -/
theorem witness_AddSubLaws :
    s17 0x10000 + s17 0x1FFFF = -65537 ∧ s17 0x0FFFF + s17 0x00001 = 65536 ∧ s17 0x0FFFF + s17 0x00000 = 65535 := by decide

/-- LtWritesSignOfDifference and GtWritesComplementOfSign. -/
theorem witness_comparator_sides :
    WrapsNegative (0 : Fixed17).toNat (1 : Fixed17).toNat ∧ ¬ WrapsNegative (1 : Fixed17).toNat (1 : Fixed17).toNat := by
  unfold WrapsNegative
  decide

theorem witness_ComparatorLaws :
    (-65536 ≤ s17 0x18000 - s17 0x07FFF ∧ s17 0x18000 - s17 0x07FFF ≤ 65535) ∧
      (0x10000 : Fixed17).getLsbD 16 = (0x1FFFF : Fixed17).getLsbD 16 ∧ sub17 5 5 = 0x00000 ∧
      sub17 0 0x10000 = 0x10000 := by decide

/-- ClassifyWritesPoly, CntClassifyNeedsACompleteBlock. -/
theorem witness_classification :
    exec (.classify 1152 576) State.reset = .next { State.reset with e := 0b1111, v := 1 } ∧
      (atBit 2304).idx.toNat = 2304 ∧ (atBit 2303).idx.toNat ≠ 2304 ∧ (2303 : Count).toNat = 2303 ∧
      exec .cntClear (atBit 9) = .next State.reset := ⟨rfl, rfl, by decide, rfl, rfl⟩

/-- PolyIsIntegerPredicate, OnlyEdgeDcMeetsEquality, PassSetOfTheContractSquare: pairs at the ends of the ranges. -/
theorem witness_polygon_pairs :
    (3738 ≤ 3738 ∧ 1 ≤ 3738 ∧ ¬ (3738 = 3738 ∧ 1 = 0)) ∧ ((697 : Int) = 2 * 1500 - 2303) ∧ ((698 : Int) ≠ 2 * 1500 - 2303) ∧
      (poly (BitVec.ofNat 17 461) (BitVec.ofNat 17 0)).2 = 1 ∧
      (poly (BitVec.ofNat 17 1842) (BitVec.ofNat 17 1381)).2 = 1 := by decide

/-- CntBitFeedsOneBit and CntByteFeedsEightBits: the last IDX that feeds and the first that does not. -/
theorem witness_counter_bounds :
    (atBit 2303).idx.toNat ≠ 2304 ∧ (atBit 2304).idx.toNat = 2304 ∧ (atBit 2296).idx.toNat ≤ 2296 ∧
      2296 < (atBit 2297).idx.toNat := by decide

/-- CountsClosedForm: bits fed by CNT_BYTE and CNT_BIT, with ADD, CNT_CLASSIFY and an illegal word in between, and a full block
by CNT_BYTE. -/
theorem witness_CountsClosedForm :
    CounterClear State.reset ∧
      (∀ w ∈ [0x000000006E, 0x0000600051, 0x000000000F, 0x8000000000, 0x000000001D], decode w ≠ .ok .cntClear) ∧
      [0x000000006E, 0x0000600051, 0x000000000F, 0x8000000000, 0x000000001D].flatMap wordBits = [0, 1, 1, 0, 0, 0, 0, 0, 1] ∧
      (wordBits 0x0000000FFE).length * 288 = 2304 := by
  refine ⟨⟨rfl, rfl, rfl, rfl, rfl⟩, fun w hw h => ?_, by decide, by decide⟩
  simp only [List.mem_cons, List.not_mem_nil, or_false] at hw
  rcases hw with rfl | rfl | rfl | rfl | rfl <;> cases h

/-- ClearAfterResetChangesNothing: a cleared counter in a state that is not reset's. -/
theorem witness_ClearAfterResetChangesNothing : CounterClear { State.reset with r := 5, viol := 1, vcause := 2 } :=
  ⟨rfl, rfl, rfl, rfl, rfl⟩

/-- BlockVerdict: a cleared counter and a full block. -/
theorem witness_full_block : CounterClear State.reset ∧ (List.replicate 2304 (1 : Bit)).length = 2304 :=
  ⟨⟨rfl, rfl, rfl, rfl, rfl⟩, List.length_replicate⟩

theorem witness_SplitIntoBytesDoesNotMatter :
    (∀ i ∈ [Instr.cntByte 6, Instr.cntBit 1], fedBits i ≠ []) ∧
      (atBit 2295).idx.toNat + ([Instr.cntByte 6, Instr.cntBit 1].flatMap fedBits).length ≤ 2304 := by decide

theorem witness_StartingLastIsUnobservable :
    State.reset.first = 1 ∧ State.reset.idx.toNat ≠ 2304 ∧ State.reset.idx.toNat ≤ 2296 := by decide

theorem witness_NopChangesNothing :
    (0x4000000000 : Command) &&& 0xF = 0x0 ∧ 2 ^ 38 ≤ (0x4000000000 : Command).toNat := by decide

theorem witness_ViolationKeepsTheFirstCause :
    State.reset.viol = 0 ∧ ({ State.reset with viol := 1, vcause := 2 } : State).viol ≠ 0 := by decide

theorem witness_ReservedBitsRecordViolationOne : (0x8000400011 : Command).extractLsb' 38 2 ≠ 0 := by decide

/-- A faulted state with a command pending. -/
def faultedState : State := { State.reset with viol := 1, vcause := 3, pending := [.command 0x4000000000] }

/-- ViolationIsStickyAcrossSteps, ViolationIsStickyAndChangesNoMeaning. -/
theorem witness_violation_is_sticky :
    Faulted faultedState ∧ step faultedState = .next { State.reset with viol := 1, vcause := 3 } ∧
      perform 0x000000000C faultedState = .next faultedState ∧ ∀ rest, faultedState.pending ≠ .reset :: rest := by
  refine ⟨rfl, rfl, rfl, fun rest h => ?_⟩
  injection h with h1 _
  exact HostAction.noConfusion h1

/-- StepKeepsRangeInvariant and StepKeepsVerdictInvariant: a state that is not reset's, with a bit pending. -/
theorem witness_invariants :
    RangeInv { atBit 1 with last := 1, pending := [.command 0x1D] } ∧ VerdictInv { atBit 1 with last := 1, pending := [.command 0x1D] } ∧
      step { atBit 1 with last := 1, pending := [.command 0x1D] } =
        .next { atBit 2 with last := 1, c1 := 1, c11 := 1 } := by
  refine ⟨⟨by decide, by decide, by decide, by decide, fun _ => rfl, fun h => ?_⟩, ?_, rfl⟩
  · exact absurd h (by decide)
  · unfold VerdictInv
    decide

theorem witness_ReachableStatesSatisfyInvariants : Reachable { State.reset with idx := 1, last := 1, first := 0 } :=
  .act (.command 0x1D) .reset rfl

theorem witness_AssemblerAcceptsExactlyWellFormed :
    (SourceCommand.op .add [.dec (-65536), .hex 5 0x1FFFF]).wellFormed = true ∧
      (Numeral.dec 131072 ∈ [Numeral.dec 131072] ∧ 131071 < (Numeral.dec 131072).value) ∧
      (Numeral.dec (-65537)).value < -65536 ∧ assemble (.op .sext [.dec (-1)]) = some [0x00001FFFFA] ∧
      2 ^ 40 - 1 < 2 ^ 40 := by decide

theorem witness_PseudoInstructionsExpand :
    (Numeral.dec (-65536)).inRange .fixed17 = true ∧ (Numeral.dec 131071).inRange .fixed17 = true ∧
      [Numeral.dec 0, Numeral.hex 2 255] ≠ [] ∧
      ∀ v ∈ [Numeral.dec 0, Numeral.hex 2 255], v.inRange .byte = true := by decide

end Sys2Proof.Tests
end

/-! SUPPORT. The state's own statements (spec/10_state.md): STATUS field by field, and the invariants of R25 and R37, kept by each
operation of the model and so by everything the host can do. -/

namespace Sys2Proof.Machine

open Sys2Proof.Safety

/-! ### STATUS -/

theorem bit_getLsbD_zero (b : Bit) : b.getLsbD 0 = true ↔ b = 1 := by
  rcases bit_cases b with rfl | rfl <;> decide

/-- DONE is 1 exactly when the block is full (R31). -/
theorem done_eq_one_iff (s : State) : done s = 1 ↔ s.idx.toNat = 2304 := by
  rw [done_eq]
  split <;> simp [*]

/-- The bits of STATUS, least significant first: its fields laid end to end (R34). -/
theorem status_getLsbD (s : State) (i : Nat) :
    (status s).getLsbD i =
      if i < 1 then (done s).getLsbD i
      else if i < 2 then s.viol.getLsbD (i - 1)
      else if i < 4 then s.vcause.getLsbD (i - 2)
      else if i < 5 then s.first.getLsbD (i - 4)
      else if i < 6 then s.last.getLsbD (i - 5)
      else false := by
  simp only [status, BitVec.getLsbD_append, BitVec.getLsbD_zero]
  grind

theorem status_vcause_field (s : State) : (status s).extractLsb' 2 2 = s.vcause := by
  apply BitVec.eq_of_getLsbD_eq
  intro i hi
  rw [BitVec.getLsbD_extractLsb', status_getLsbD]
  simp (disch := omega) only [hi, decide_true, Bool.true_and, if_pos, if_neg, Nat.add_sub_cancel_left]

theorem status_reserved_field (s : State) : (status s).extractLsb' 6 10 = 0 := by
  apply BitVec.eq_of_getLsbD_eq
  intro i hi
  rw [BitVec.getLsbD_extractLsb', status_getLsbD]
  simp (disch := omega) only [if_neg, Bool.and_false, BitVec.ofNat_eq_ofNat, BitVec.getLsbD_zero]

/-! ### The verdict invariant (R25) -/

/-- The verdict invariant speaks of E and V alone. -/
theorem verdictInv_of_eq {s t : State} (h : VerdictInv s) (he : t.e = s.e) (hv : t.v = s.v) : VerdictInv t := by
  rwa [VerdictInv, he, hv]

theorem verdict_eq_one_iff (ed dc bc ab : Bit) : verdict ed dc bc ab = 1 ↔ packEdges ed dc bc ab = 0b1111 := by
  revert ed dc bc ab
  decide

theorem verdictInv_writeVerdict_poly (c1 c11 : Fixed17) (s : State) : VerdictInv (writeVerdict (poly c1 c11) s) :=
  verdict_eq_one_iff _ _ _ _

theorem verdictInv_applyReset (s : State) : VerdictInv (applyReset s) := by
  simp [VerdictInv]

theorem verdictInv_of_effect {i : Instr} {s t : State} (h : VerdictInv s) (he : Effect i s t) : VerdictInv t := by
  cases he with
  | same => exact h
  | classify c1 c11 => exact verdictInv_writeVerdict_poly c1 c11 s
  | byte v => exact verdictInv_of_eq h (bitSteps_e _ s) (bitSteps_v _ s)
  | _ => exact verdictInv_of_eq h rfl rfl

theorem verdictInv_step {s t : State} (h : VerdictInv s) (hst : step s = .next t) : VerdictInv t :=
  step_keeps (fun _ _ h => verdictInv_of_eq h rfl rfl) (fun _ _ _ => verdictInv_of_effect)
    (fun _ _ h => verdictInv_of_eq h rfl rfl) verdictInv_applyReset (fun _ _ h => verdictInv_of_eq h rfl rfl) h hst

/-! ### The range invariants (R37) -/

/-- The range invariants speak of C1, C11, IDX, FIRST and the violation record alone. -/
theorem rangeInv_of_eq {s t : State} (h : RangeInv s) (hidx : t.idx = s.idx) (hfirst : t.first = s.first)
    (hc1 : t.c1 = s.c1) (hc11 : t.c11 = s.c11) (hviol : t.viol = s.viol) (hvcause : t.vcause = s.vcause) :
    RangeInv t := by
  obtain ⟨idx_le, first_iff, c11_le_c1, c1_le, no_cause, some_cause⟩ := h
  constructor <;> simpa only [hidx, hfirst, hc1, hc11, hviol, hvcause]

theorem rangeInv_applyReset (s : State) : RangeInv (applyReset s) := by
  constructor <;> simp

theorem rangeInv_clearCounter {s : State} (h : RangeInv s) : RangeInv (clearCounter s) :=
  ⟨by simp, by simp, by simp, by simp, h.no_cause, h.some_cause⟩

theorem causeCode_ne_zero (cause : ViolationCause) : causeCode cause ≠ 0 := by
  cases cause <;> decide

/-- A violation leaves a cause recorded: its own, or the first one's (R161). -/
theorem rangeInv_raiseViolation (cause : ViolationCause) {s : State} (h : RangeInv s) :
    RangeInv (raiseViolation cause s) := by
  refine ⟨h.idx_le, h.first_iff, h.c11_le_c1, h.c1_le, fun h0 => ?_, fun _ => ?_⟩
  · simp at h0
  · rw [raiseViolation_vcause]
    split
    · exact causeCode_ne_zero cause
    · next h0 => exact h.some_cause ((bit_cases s.viol).resolve_left h0)

/-- A pair of ones is in particular a current one: each bit that C11 counts, C1 counts too (R130). -/
theorem bit_one_of_pair_of_ones (b l : Bit) : (b ++ l : BitVec 2) = 0b11#2 → b = 1 := by
  revert b l
  decide

/-- Feeding a bit where the block has room: only the first bit goes uncounted, and C1 counts whatever C11 does (R130, R135). -/
theorem rangeInv_bitStep (b : Bit) {s : State} (h : RangeInv s) (hroom : s.idx.toNat ≠ 2304) :
    RangeInv (bitStep b s) := by
  obtain ⟨idx_le, first_iff, c11_le_c1, c1_le, no_cause, some_cause⟩ := h
  have hidx : (s.idx + 1).toNat = s.idx.toNat + 1 := by bv_omega
  have hstarted : s.first = 0 → 1 ≤ s.idx.toNat := fun h0 => by
    have hne : s.idx ≠ 0 := fun hi => absurd (first_iff.mpr hi) (by rw [h0]; decide)
    bv_omega
  have hc1 : (s.c1 + 1).toNat = s.c1.toNat + 1 := by bv_omega
  have hc11 : (s.c11 + 1).toNat = s.c11.toNat + 1 := by bv_omega
  refine ⟨?_, ?_, ?_, ?_, no_cause, some_cause⟩
  · rw [bitStep_idx]
    omega
  · have hne : s.idx + 1 ≠ 0 := fun hi => by
      rw [hi] at hidx
      exact Nat.succ_ne_zero _ hidx.symm
    rw [bitStep_first, bitStep_idx]
    exact iff_of_false (by decide) hne
  · rw [bitStep_c11, bitStep_c1]
    split
    · next hpair =>
      rw [if_pos ⟨hpair.1, bit_one_of_pair_of_ones b s.last hpair.2⟩]
      omega
    · split <;> omega
  · rw [bitStep_c1, bitStep_idx]
    split
    · next hcounted =>
      have := hstarted hcounted.1
      omega
    · omega

/-- Feeding as many bits as the block has room for. -/
theorem rangeInv_bitSteps (bs : List Bit) {s : State} (h : RangeInv s) (hroom : s.idx.toNat + bs.length ≤ 2304) :
    RangeInv (bitSteps bs s) := by
  induction bs generalizing s with
  | nil => exact h
  | cons b bs ih =>
    rw [List.length_cons] at hroom
    refine ih (rangeInv_bitStep b h (by omega)) ?_
    rw [bitStep_idx]
    bv_omega

theorem rangeInv_of_effect {i : Instr} {s t : State} (h : RangeInv s) (he : Effect i s t) : RangeInv t := by
  cases he with
  | same => exact h
  | clear => exact rangeInv_clearCounter h
  | bit b _ hroom => exact rangeInv_bitStep b h hroom
  | byte v _ hroom => exact rangeInv_bitSteps (byteBits v) h (Nat.add_le_add_right hroom 8)
  | violation cause => exact rangeInv_raiseViolation cause h
  | _ => exact rangeInv_of_eq h rfl rfl rfl rfl rfl rfl

theorem rangeInv_step {s t : State} (h : RangeInv s) (hst : step s = .next t) : RangeInv t :=
  step_keeps (fun c _ => rangeInv_raiseViolation c) (fun _ _ _ => rangeInv_of_effect)
    (fun _ _ h => rangeInv_of_eq h rfl rfl rfl rfl rfl rfl) rangeInv_applyReset
    (fun _ _ h => rangeInv_of_eq h rfl rfl rfl rfl rfl rfl) h hst

/-! ### Reachable states -/

/-- A step with the action put before the host's list performs that action. -/
theorem step_setPending_cons (a : HostAction) (s : State) :
    step (setPending (a :: s.pending) s) = performAction a s := rfl

/-- What holds at reset, and is kept by every step whatever the host's list, holds in every reachable state. -/
theorem reachable_induction {P : State → Prop} (hreset : P State.reset)
    (hstep : ∀ s t, P s → step s = .next t → P t) (hpend : ∀ as s, P s → P (setPending as s))
    {s : State} (hs : Reachable s) : P s := by
  induction hs with
  | reset => exact hreset
  | act a _ h ih => exact hstep _ _ (hpend _ _ ih) ((step_setPending_cons a _).trans h)

theorem rangeInv_of_reachable {s : State} (hs : Reachable s) : RangeInv s :=
  reachable_induction (rangeInv_applyReset State.reset) (fun _ _ => rangeInv_step)
    (fun _ _ h => rangeInv_of_eq h rfl rfl rfl rfl rfl rfl) hs

theorem verdictInv_of_reachable {s : State} (hs : Reachable s) : VerdictInv s :=
  reachable_induction (verdictInv_applyReset State.reset) (fun _ _ => verdictInv_step)
    (fun _ _ h => verdictInv_of_eq h rfl rfl) hs

end Sys2Proof.Machine

namespace Sys2Proof.Proofs

open Sys2Proof.Machine Sys2Proof.Safety

/-- Settles O56: both invariants hold at reset and every step keeps them. -/
theorem reachableStatesSatisfyInvariants : Obligations.ReachableStatesSatisfyInvariants := by
  intro s hs
  obtain ⟨idx_le, first_iff, c11_le_c1, c1_le, no_cause, some_cause⟩ := rangeInv_of_reachable hs
  exact ⟨idx_le, first_iff, c11_le_c1, Nat.le_trans c1_le (Nat.le_max_left _ _), by omega, no_cause, some_cause,
    verdictInv_of_reachable hs⟩

/-- Settles O10, field by field from the bits of STATUS. -/
theorem statusFields : Obligations.StatusFields := by
  intro s
  refine ⟨?_, ?_, status_vcause_field s, ?_, ?_, status_reserved_field s⟩ <;> rw [status_getLsbD]
  · exact (bit_getLsbD_zero _).trans (done_eq_one_iff s)
  all_goals exact bit_getLsbD_zero _

end Sys2Proof.Proofs

namespace Sys2Proof.Proofs

open Sys2Proof.Machine Sys2Proof.Safety

/-- Settles O48: the bits tested are RSV, and a word with RSV not 0 raises the violation of cause 1 (R53). -/
theorem reservedBitsRecordViolationOne : Obligations.ReservedBitsRecordViolationOne := by
  intro w s hrsv
  calc perform w s
      = .next (raiseViolation .rsvNonzero s) := perform_illegal w s hrsv
    _ = .next (afterViolation 1 s) := congrArg Host.Outcome.next (raiseViolation_eq .rsvNonzero s)

end Sys2Proof.Proofs

/-! SUPPORT. The arithmetic unit and the comparator (spec/40_fixed17.md): the pattern each function answers, what each command leaves,
and which words perform it. -/

namespace Sys2Proof.Machine

open Sys2Proof.Safety

/-! ### Words of a row -/

/-- A word that matches a row of the table performs the row's command (R52, R58). -/
theorem perform_of_match (op : BitVec 4) {w : Command} {i : Instr} (hm : w &&& 0xC00000000F = op.setWidth 40)
    (hi : opField w = op → decodeOp w = i) (s : State) : perform w s = exec i s := by
  obtain ⟨hrsv, hop⟩ := (match_iff w op).mp hm
  rw [perform_legal w s hrsv, hi hop]

/-! ### What each command leaves -/

theorem leavesR_add {a b val : Fixed17} (h : add17 a b = val) : LeavesR (.add a b) val := fun _ => h ▸ rfl

theorem leavesR_sub {a b val : Fixed17} (h : sub17 a b = val) : LeavesR (.sub a b) val := fun _ => h ▸ rfl

theorem leavesR_mul2 {a val : Fixed17} (h : mul2_17 a = val) : LeavesR (.mul2 a) val := fun _ => h ▸ rfl

theorem leavesR_mul5 {a val : Fixed17} (h : mul5_17 a = val) : LeavesR (.mul5 a) val := fun _ => h ▸ rfl

theorem leavesR_mul10 {a val : Fixed17} (h : mul10_17 a = val) : LeavesR (.mul10 a) val := fun _ => h ▸ rfl

theorem leavesR_mul15 {a val : Fixed17} (h : mul15_17 a = val) : LeavesR (.mul15 a) val := fun _ => h ▸ rfl

theorem leavesR_mul20 {a val : Fixed17} (h : mul20_17 a = val) : LeavesR (.mul20 a) val := fun _ => h ▸ rfl

theorem leavesX_sext {a : Fixed17} {val : Display} (h : sext32 a = val) : LeavesX (.sext a) val := fun _ => h ▸ rfl

theorem leavesF_lt {a b : Fixed17} {val : Bit} (h : lt17 a b = val) : LeavesF (.lt a b) val := fun _ => h ▸ rfl

theorem leavesF_gt {a b : Fixed17} {val : Bit} (h : gt17 a b = val) : LeavesF (.gt a b) val := fun _ => h ▸ rfl

/-! ### Sums, differences and the sign extension -/

theorem add17_eq (x y : Fixed17) : add17 x y = mask17 (x.toNat + y.toNat) := by
  rw [eq_mask17_iff, toNat_add17]
  omega

theorem sub17_eq (x y : Fixed17) : sub17 x y = mask17 ((x.toNat : Int) - y.toNat) := by
  rw [eq_mask17_iff, toNat_sub17]

/-- The signed and the unsigned reading of an operand differ by a multiple of 2^17, which the mask takes away (R7). -/
theorem mask17_add_s17 (x y : Fixed17) : mask17 (x.toNat + y.toNat) = mask17 (s17 x + s17 y) := by
  rw [mask17_eq_iff, ← s17_emod x, ← s17_emod y]
  omega

theorem mask17_sub_s17 (x y : Fixed17) : mask17 ((x.toNat : Int) - y.toNat) = mask17 (s17 x - s17 y) := by
  rw [mask17_eq_iff, ← s17_emod x, ← s17_emod y]
  omega

theorem sext32_eq (x : Fixed17) : sext32 x = BitVec.ofInt 32 (s17 x) := by
  have hx := x.isLt
  apply BitVec.eq_of_toNat_eq
  rw [toNat_sext32, BitVec.toNat_ofInt, s17_eq]
  split <;> omega

/-! ### The chains of sign-aware doubles -/

/-- R72's closed form, for every length of chain the unit uses. -/
theorem toNat_dblk (x : Fixed17) {k : Nat} (hk : k ≤ 4) : (dblk x k).toNat = chain x k := by
  match k with
  | 0 =>
    have := x.isLt
    simp only [dblk, chain]
    split <;> omega
  | 1 => exact toNat_dblk_one x
  | 2 => exact toNat_dblk_two x
  | 3 => exact toNat_dblk_three x
  | 4 => exact toNat_dblk_four x

theorem dbl_of_sign_zero {x : Fixed17} (h : x.getLsbD 16 = false) : dbl x = mask17 (2 * x.toNat) := by
  rw [getLsbD_sixteen, decide_eq_false_iff_not] at h
  rw [eq_mask17_iff, toNat_dbl]
  split <;> omega

theorem toNat_dbl_of_sign_one {x : Fixed17} (h : x.getLsbD 16 = true) : (dbl x).toNat = 65536 + 2 * x.toNat % 65536 := by
  rw [getLsbD_sixteen, decide_eq_true_eq] at h
  rw [toNat_dbl, if_pos (by omega)]

/-- MISM in terms of the top k+1 bits: they are an even number other than 0 (R84). -/
theorem mism_iff (x : Fixed17) {k : Nat} (hk : k ≤ 16) :
    Mism x k ↔ x.toNat / 2 ^ (16 - k) % 2 = 0 ∧ x.toNat / 2 ^ (16 - k) ≠ 0 := by
  have hhalf : x.toNat / 2 ^ (17 - k) = x.toNat / 2 ^ (16 - k) / 2 := by
    rw [Nat.div_div_eq_div_mul, ← Nat.pow_succ, ← Nat.succ_sub hk]
  rw [Mism, hhalf]
  omega

/-- The modular product: its bit 16 is the last of the top k+1 bits of x, and its lower bits are the chain's. -/
theorem two_pow_mul_mod (x : Fixed17) {k : Nat} (hk : k ≤ 16) :
    2 ^ k * x.toNat % 131072 = x.toNat * 2 ^ k % 65536 + 65536 * (x.toNat / 2 ^ (16 - k) % 2) := by
  have hsplit : 65536 = 2 ^ (16 - k) * 2 ^ k := by rw [← Nat.pow_add, Nat.sub_add_cancel hk]
  have hhigh : x.toNat * 2 ^ k / 65536 = x.toNat / 2 ^ (16 - k) := by
    rw [hsplit, Nat.mul_div_mul_right _ _ (Nat.two_pow_pos k)]
  rw [Nat.mul_comm, ← hhigh]
  exact Nat.mod_mul (a := 65536) (b := 2)

theorem chain_of_not_mism {x : Fixed17} {k : Nat} (hk : k ≤ 16) (h : ¬ Mism x k) :
    chain x k = 2 ^ k * x.toNat % 131072 := by
  rw [mism_iff x hk] at h
  rw [two_pow_mul_mod x hk, chain]
  split <;> omega

theorem chain_of_mism {x : Fixed17} {k : Nat} (hk : k ≤ 16) (h : Mism x k) :
    chain x k = 2 ^ k * x.toNat % 131072 + 65536 := by
  obtain ⟨heven, hne⟩ := (mism_iff x hk).mp h
  rw [two_pow_mul_mod x hk, chain, if_neg hne, heven]
  omega

theorem natCast_product (x : Fixed17) (k : Nat) : ((2 ^ k * x.toNat : Nat) : Int) = 2 ^ k * (x.toNat : Int) := by
  rw [Int.natCast_mul, Int.natCast_pow]
  rfl

theorem dblk_eq_product_iff (x : Fixed17) {k : Nat} (hk : k ≤ 4) :
    dblk x k = mask17 (2 ^ k * x.toNat) ↔ ¬ Mism x k := by
  have hk16 : k ≤ 16 := by omega
  rw [eq_mask17_iff, toNat_dblk x hk, ← natCast_product]
  constructor
  · intro heq hm
    have := chain_of_mism hk16 hm
    omega
  · intro hm
    have := chain_of_not_mism hk16 hm
    omega

theorem dblk_of_mism {x : Fixed17} {k : Nat} (hk : k ≤ 4) (h : Mism x k) :
    dblk x k = mask17 (2 ^ k * x.toNat + 65536) := by
  have hchain := chain_of_mism (by omega) h
  have hlt := (dblk x k).isLt
  rw [toNat_dblk x hk] at hlt
  rw [eq_mask17_iff, toNat_dblk x hk, ← natCast_product]
  omega

theorem mism_one_iff (x : Fixed17) : Mism x 1 ↔ 0x10000 ≤ x.toNat ∧ x.toNat ≤ 0x17FFF := by
  have := x.isLt
  rw [mism_iff x (by decide)]
  omega

theorem mul2_17_eq_product {x : Fixed17} (h : -32768 ≤ s17 x) : mul2_17 x = mask17 (2 * x.toNat) := by
  have hexact : ¬ Mism x 1 := by
    rw [mism_one_iff]
    rw [s17_eq] at h
    split at h <;> omega
  exact (dblk_eq_product_iff x (by decide)).mpr hexact

/-! ### The comparator -/

theorem bit_ne_one_iff (b : Bit) : b ≠ 1 ↔ b = 0 := by
  rcases bit_cases b with rfl | rfl <;> decide

theorem bit_eq_iff (b c : Bit) : b = c ↔ (b = 1 ↔ c = 1) := by
  rcases bit_cases b with rfl | rfl <;> rcases bit_cases c with rfl | rfl <;> decide

theorem lt17_eq_zero_iff (x y : Fixed17) : lt17 x y = 0 ↔ ¬ WrapsNegative x.toNat y.toNat := by
  rw [← bit_ne_one_iff, ne_eq, lt17_eq_one_iff]

theorem gt17_eq_zero_iff (x y : Fixed17) : gt17 x y = 0 ↔ WrapsNegative x.toNat y.toNat := by
  rw [← bit_ne_one_iff, ne_eq, gt17_eq_one_iff, Classical.not_not]

theorem not_wrapsNegative_self (a : Int) : ¬ WrapsNegative a a := by
  rw [WrapsNegative, Int.sub_self]
  decide

theorem lt17_self (x : Fixed17) : lt17 x x = 0 := (lt17_eq_zero_iff x x).mpr (not_wrapsNegative_self _)

theorem gt17_self (x : Fixed17) : gt17 x x = 1 := (gt17_eq_one_iff x x).mpr (not_wrapsNegative_self _)

/-- The wrapped sign is the same for the unsigned and the signed readings of the operands. -/
theorem wrapsNegative_s17 (x y : Fixed17) : WrapsNegative (s17 x) (s17 y) ↔ WrapsNegative x.toNat y.toNat := by
  rw [WrapsNegative, WrapsNegative, ← s17_emod x, ← s17_emod y, ← Int.sub_emod]

theorem s17_sub_in_range {x y : Fixed17}
    (h : -32768 ≤ s17 x ∧ s17 x ≤ 32767 ∧ -32768 ≤ s17 y ∧ s17 y ≤ 32767 ∨ x.getLsbD 16 = y.getLsbD 16) :
    -65536 ≤ s17 x - s17 y ∧ s17 x - s17 y ≤ 65535 := by
  have hx := x.isLt
  have hy := y.isLt
  rcases h with h | hsign
  · omega
  · rw [getLsbD_sixteen, getLsbD_sixteen, decide_eq_decide] at hsign
    rw [s17_eq, s17_eq]
    split <;> split <;> omega

theorem sub17_eq_zero_iff (x y : Fixed17) : sub17 x y = 0x00000 ↔ ((x.toNat : Int) - y.toNat) % 131072 = 0 := by
  rw [← toNat_sub17, ← BitVec.toNat_inj]
  exact Int.ofNat_inj.symm

theorem sub17_eq_half_iff (x y : Fixed17) :
    sub17 x y = 0x10000 ↔ ((x.toNat : Int) - y.toNat) % 131072 = 65536 := by
  rw [← toNat_sub17, ← BitVec.toNat_inj]
  exact Int.ofNat_inj.symm

/-- The two differences are each other's negatives modulo 2^17, so their sign bits differ unless both are 0 or both are 2^16
(R86, law (d)). -/
theorem lt17_eq_gt17_swap_iff (x y : Fixed17) :
    lt17 x y = gt17 y x ↔ sub17 x y ≠ 0x00000 ∧ sub17 x y ≠ 0x10000 := by
  rw [bit_eq_iff, lt17_eq_one_iff, gt17_eq_one_iff, ne_eq, ne_eq, sub17_eq_zero_iff, sub17_eq_half_iff, WrapsNegative,
    WrapsNegative]
  omega

theorem lt17_gt17_of_sub17_zero {x y : Fixed17} (h : sub17 x y = 0x00000) : lt17 x y = 0 ∧ gt17 y x = 1 := by
  rw [sub17_eq_zero_iff] at h
  rw [lt17_eq_zero_iff, gt17_eq_one_iff, WrapsNegative, WrapsNegative]
  omega

theorem lt17_gt17_of_sub17_half {x y : Fixed17} (h : sub17 x y = 0x10000) : lt17 x y = 1 ∧ gt17 y x = 0 := by
  rw [sub17_eq_half_iff] at h
  rw [lt17_eq_one_iff, gt17_eq_zero_iff, WrapsNegative, WrapsNegative]
  omega

end Sys2Proof.Machine

namespace Sys2Proof.Proofs

open Sys2Proof.Machine Sys2Proof.Safety

/-- Settles O19: R gets ADD17, the masked sum. -/
theorem addWritesSumModulo : Obligations.AddWritesSumModulo :=
  ⟨fun a b => leavesR_add (add17_eq a b), mask17_add_s17,
    fun w s h => perform_of_match 0x1 h (decodeOp_of_op w 0x1) s,
    leavesR_add (by decide), leavesR_add (by decide), leavesR_add (by decide), leavesR_add (by decide),
    fun x => leavesR_add (BitVec.add_zero x),
    fun s => (perform_of_decode rfl s).trans (leavesR_add (by decide) s)⟩

/-- Settles O20: R gets SUB17, the masked difference. -/
theorem subWritesDifferenceModulo : Obligations.SubWritesDifferenceModulo :=
  ⟨fun a b => leavesR_sub (sub17_eq a b), mask17_sub_s17,
    fun w s h => perform_of_match 0x2 h (decodeOp_of_op w 0x2) s,
    leavesR_sub (by decide), leavesR_sub (by decide), leavesR_sub (by decide),
    fun x => leavesR_sub (BitVec.sub_self x), leavesR_sub (by decide),
    fun s => (perform_of_decode rfl s).trans (leavesR_sub (by decide) s)⟩

/-- Settles O21: one double arm by arm, and the chains by their closed forms. -/
theorem doubleChainClosedForm : Obligations.DoubleChainClosedForm :=
  ⟨fun _ => ⟨dbl_of_sign_zero, toNat_dbl_of_sign_one⟩, fun _ => rfl, fun _ _ => rfl, fun x _ => toNat_dblk x⟩

/-- Settles O22: R gets one sign-aware double of A. -/
theorem mul2WritesDouble : Obligations.Mul2WritesDouble :=
  ⟨fun a => leavesR_mul2 (mul2_17_eq a), fun w s h => perform_of_match 0x3 h (decodeOp_of_op w 0x3) s,
    leavesR_mul2 (by decide), leavesR_mul2 (by decide), leavesR_mul2 (by decide), leavesR_mul2 (by decide),
    leavesR_mul2 (by decide), leavesR_mul2 (by decide), leavesR_mul2 (by decide),
    fun s => (perform_of_decode rfl s).trans (leavesR_mul2 (by decide) s)⟩

/-- Settles O23: R gets A plus its double doubled. -/
theorem mul5WritesSum : Obligations.Mul5WritesSum :=
  ⟨fun a => leavesR_mul5 (mul5_17_eq a), fun w s h => perform_of_match 0x4 h (decodeOp_of_op w 0x4) s,
    leavesR_mul5 (by decide), leavesR_mul5 (by decide), leavesR_mul5 (by decide), leavesR_mul5 (by decide),
    leavesR_mul5 (by decide), leavesR_mul5 (by decide),
    fun s => (perform_of_decode rfl s).trans (leavesR_mul5 (by decide) s)⟩

/-- Settles O24: R gets the sum of the chains of three doubles and of one. -/
theorem mul10WritesSum : Obligations.Mul10WritesSum :=
  ⟨fun a => leavesR_mul10 (mul10_17_eq a), fun w s h => perform_of_match 0x5 h (decodeOp_of_op w 0x5) s,
    leavesR_mul10 (by decide), leavesR_mul10 (by decide), leavesR_mul10 (by decide), leavesR_mul10 (by decide),
    leavesR_mul10 (by decide),
    fun s => (perform_of_decode rfl s).trans (leavesR_mul10 (by decide) s)⟩

/-- Settles O25: R gets the chain of four doubles less A. -/
theorem mul15WritesDifference : Obligations.Mul15WritesDifference :=
  ⟨fun a => leavesR_mul15 (mul15_17_eq a), fun w s h => perform_of_match 0x6 h (decodeOp_of_op w 0x6) s,
    leavesR_mul15 (by decide), leavesR_mul15 (by decide), leavesR_mul15 (by decide), leavesR_mul15 (by decide),
    leavesR_mul15 (by decide),
    fun s => (perform_of_decode rfl s).trans (leavesR_mul15 (by decide) s)⟩

/-- Settles O26: R gets the sum of the chains of four doubles and of two. -/
theorem mul20WritesSum : Obligations.Mul20WritesSum :=
  ⟨fun a => leavesR_mul20 (mul20_17_eq a), fun w s h => perform_of_match 0x7 h (decodeOp_of_op w 0x7) s,
    leavesR_mul20 (by decide), leavesR_mul20 (by decide), leavesR_mul20 (by decide), leavesR_mul20 (by decide),
    leavesR_mul20 (by decide), leavesR_mul20 (by decide),
    fun s => (perform_of_decode rfl s).trans (leavesR_mul20 (by decide) s)⟩

/-- Settles O27: X gets SEXT32, whose two arms are the two's complement pattern of the signed value. -/
theorem sextWritesSignExtension : Obligations.SextWritesSignExtension := by
  refine ⟨fun a => leavesX_sext (sext32_eq a), fun a => ?_,
    fun w s h => perform_of_match 0xA h (decodeOp_of_op w 0xA) s,
    leavesX_sext (by decide), leavesX_sext (by decide), leavesX_sext (by decide), leavesX_sext (by decide),
    fun s => (perform_of_decode rfl s).trans (leavesX_sext (by decide) s)⟩
  rw [← sext32_eq, BitVec.ofNat_toNat]
  rfl

/-- Settles O29: the chain and the modular product differ in bit 16 alone. -/
theorem chainIsModularUnlessMismatch : Obligations.ChainIsModularUnlessMismatch :=
  ⟨fun x _ hk => ⟨dblk_eq_product_iff x hk, dblk_of_mism hk⟩, mism_one_iff, fun _ => mul2_17_eq_product⟩

/-- Settles O31: F gets LT17, by either side of the wrapped difference's sign. -/
theorem ltWritesSignOfDifference : Obligations.LtWritesSignOfDifference :=
  ⟨fun a b s h => leavesF_lt ((lt17_eq_one_iff a b).mpr h) s, fun a b s h => leavesF_lt ((lt17_eq_zero_iff a b).mpr h) s,
    fun w s h => perform_of_match 0x8 h (decodeOp_of_op w 0x8) s,
    fun x => leavesF_lt (lt17_self x), leavesF_lt (by decide), leavesF_lt (by decide), leavesF_lt (by decide),
    leavesF_lt (by decide),
    fun s => (perform_of_decode rfl s).trans (leavesF_lt (by decide) s)⟩

/-- Settles O32: F gets GT17, by either side of the wrapped difference's sign. -/
theorem gtWritesComplementOfSign : Obligations.GtWritesComplementOfSign :=
  ⟨fun a b s h => leavesF_gt ((gt17_eq_zero_iff a b).mpr h) s, fun a b s h => leavesF_gt ((gt17_eq_one_iff a b).mpr h) s,
    fun w s h => perform_of_match 0x9 h (decodeOp_of_op w 0x9) s,
    fun x => leavesF_gt (gt17_self x), leavesF_gt (by decide), leavesF_gt (by decide),
    fun s => (perform_of_decode rfl s).trans (leavesF_gt (by decide) s)⟩

/-- Settles O33, law by law, each read off the sign of the wrapped difference. -/
theorem comparatorLaws : Obligations.ComparatorLaws := by
  intro x y
  refine ⟨?_, ⟨lt17_self x, gt17_self x⟩, fun ⟨hlo, hhi⟩ => ?_, s17_sub_in_range, lt17_eq_gt17_swap_iff x y,
    lt17_gt17_of_sub17_zero, lt17_gt17_of_sub17_half, ?_⟩
  · rw [lt17_eq_one_iff, gt17_eq_zero_iff]
  · rw [lt17_eq_one_iff, gt17_eq_one_iff, ← wrapsNegative_s17, wrapsNegative_iff_lt _ _ hlo hhi]
    exact ⟨Iff.rfl, Int.not_lt⟩
  · rintro rfl
    exact gt17_self x

end Sys2Proof.Proofs

/-! SUPPORT. The polygon evaluator (spec/41_polygon.md): POLY edge by edge, its integer form on small counts, a block of ones, and the
PASS set counted along the diagonals c1 - c11 = d. -/

namespace Sys2Proof.Machine

open Sys2Proof.Safety

/-! ### POLY edge by edge (R111) -/

theorem mask17_toNat (x : Fixed17) : mask17 x.toNat = x := by
  have := x.isLt
  rw [eq_comm, eq_mask17_iff]
  omega

theorem sub17_mask17 (a b : Int) : sub17 (mask17 a) (mask17 b) = mask17 (a - b) := by
  rw [sub17_eq, mask17_eq_iff, toNat_mask17, toNat_mask17]
  omega

theorem add17_mask17 (a b : Int) : add17 (mask17 a) (mask17 b) = mask17 (a + b) := by
  rw [add17_eq, mask17_eq_iff, toNat_mask17, toNat_mask17]
  omega

/-- The comparator sees its operands modulo 2^17 only, so any integers with their patterns decide it (R80, R112). -/
theorem lt17_mask17 (a b : Int) : lt17 (mask17 a) (mask17 b) = 1 ↔ WrapsNegative a b := by
  rw [lt17_eq_one_iff, toNat_mask17, toNat_mask17, WrapsNegative, WrapsNegative, ← Int.sub_emod]

theorem gt17_mask17 (a b : Int) : gt17 (mask17 a) (mask17 b) = 1 ↔ ¬ WrapsNegative a b := by
  rw [gt17_eq_one_iff, ← lt17_eq_one_iff, lt17_mask17]

/-- The hard-wired boundary offsets as integers (R110). -/
theorem k1_eq : k1 = mask17 2303 := by decide
theorem k2_eq : k2 = mask17 4606 := by decide
theorem k4_eq : k4 = mask17 9212 := by decide

theorem abOk_eq_one_iff (c1 c11 : Fixed17) : abOk c1 c11 = 1 ↔ EdgeAB c1 c11 := by
  rw [abOk, mul15_17_eq, mul20_17_eq, k4_eq, sub17_mask17, lt17_mask17, EdgeAB]

theorem bcOk_eq_one_iff (c1 c11 : Fixed17) : bcOk c1 c11 = 1 ↔ EdgeBC c1 c11 := by
  rw [bcOk, mul15_17_eq, mul10_17_eq, k1_eq, add17_mask17, lt17_mask17, EdgeBC]

theorem dcOk_eq_one_iff (c1 c11 : Fixed17) : dcOk c1 c11 = 1 ↔ EdgeDC c1 c11 := by
  rw [dcOk, ← mask17_toNat c11, mul2_17_eq, k1_eq, sub17_mask17, gt17_mask17, mask17_toNat, EdgeDC]

theorem edOk_eq_one_iff (c1 c11 : Fixed17) : edOk c1 c11 = 1 ↔ EdgeED c1 c11 := by
  rw [edOk, mul5_17_eq, mul5_17_eq, k2_eq, sub17_mask17, gt17_mask17, EdgeED]

/-- Each bit of E is the outcome packed there (R24). -/
theorem getLsbD_packEdges (ed dc bc ab : Bit) :
    ((packEdges ed dc bc ab).getLsbD 0 = true ↔ ab = 1) ∧ ((packEdges ed dc bc ab).getLsbD 1 = true ↔ bc = 1) ∧
    ((packEdges ed dc bc ab).getLsbD 2 = true ↔ dc = 1) ∧ ((packEdges ed dc bc ab).getLsbD 3 = true ↔ ed = 1) := by
  revert ed dc bc ab
  decide

theorem verdict_eq_one_iff_and (ed dc bc ab : Bit) : verdict ed dc bc ab = 1 ↔ ab = 1 ∧ bc = 1 ∧ dc = 1 ∧ ed = 1 := by
  revert ed dc bc ab
  decide

theorem poly_verdict_iff (c1 c11 : Fixed17) :
    (poly c1 c11).2 = 1 ↔ EdgeAB c1 c11 ∧ EdgeBC c1 c11 ∧ EdgeDC c1 c11 ∧ EdgeED c1 c11 := by
  rw [← abOk_eq_one_iff, ← bcOk_eq_one_iff, ← dcOk_eq_one_iff, ← edOk_eq_one_iff]
  exact verdict_eq_one_iff_and _ _ _ _

/-- Writing POLY's pair to E and V classifies the counts (R111). -/
theorem classified_writeVerdict_poly (c1 c11 : Fixed17) (s : State) :
    Classified c1 c11 (writeVerdict (poly c1 c11) s) := by
  obtain ⟨hab, hbc, hdc, hed⟩ := getLsbD_packEdges (edOk c1 c11) (dcOk c1 c11) (bcOk c1 c11) (abOk c1 c11)
  exact ⟨hab.trans (abOk_eq_one_iff c1 c11), hbc.trans (bcOk_eq_one_iff c1 c11), hdc.trans (dcOk_eq_one_iff c1 c11),
    hed.trans (edOk_eq_one_iff c1 c11), poly_verdict_iff c1 c11⟩

theorem exec_classify (c1 c11 : Fixed17) (s : State) :
    exec (.classify c1 c11) s = .next (writeVerdict (poly c1 c11) s) := rfl

theorem leavesEV_classify {c1 c11 : Fixed17} {e : BitVec 4} {v : Bit} (h : poly c1 c11 = (e, v)) :
    LeavesEV (.classify c1 c11) e v := fun s => by
  rw [exec_classify, h]
  rfl

/-! ### The integer form on small counts (R115) -/

/-- No chain of up to four doubles of a count below 2^12 reaches bit 16, so it is the plain product. -/
theorem chain_of_small {x : Fixed17} {k : Nat} (hx : x.toNat < 2 ^ 12) (hk : k ≤ 4) : chain x k = 2 ^ k * x.toNat := by
  have htop : x.toNat / 2 ^ (16 - k) = 0 :=
    Nat.div_eq_of_lt (Nat.lt_of_lt_of_le hx (Nat.pow_le_pow_right (by decide) (by omega)))
  have hfits : 2 ^ k * x.toNat < 65536 :=
    Nat.mul_lt_mul_of_le_of_lt (Nat.pow_le_pow_right (by decide) hk) hx (by decide)
  rw [chain, if_pos htop, Nat.zero_add, Nat.mul_comm, Nat.mod_eq_of_lt hfits]

section SmallCounts

variable {c1 c11 : Nat} (hc1 : c1 ≤ 3738) (hc11 : c11 ≤ 3738)

theorem toNat_ofNat_of_small {c : Nat} (hc : c ≤ 3738) : (BitVec.ofNat 17 c).toNat = c :=
  Nat.mod_eq_of_lt (by omega)

theorem chain_ofNat_of_small {c k : Nat} (hc : c ≤ 3738) (hk : k ≤ 4) : chain (BitVec.ofNat 17 c) k = 2 ^ k * c := by
  rw [chain_of_small (by rw [toNat_ofNat_of_small hc]; omega) hk, toNat_ofNat_of_small hc]

include hc1 hc11

/-- The one edge whose difference leaves the comparator's range in the square, at (3738, 0) alone. -/
theorem edgeAB_ofNat (h : ¬ (c1 = 3738 ∧ c11 = 0)) :
    EdgeAB (BitVec.ofNat 17 c1) (BitVec.ofNat 17 c11) ↔ (15 * c11 : Int) < 20 * c1 - 9212 := by
  rw [EdgeAB, chain_ofNat_of_small hc11 (by decide), chain_ofNat_of_small hc1 (by decide),
    chain_ofNat_of_small hc1 (by decide), toNat_ofNat_of_small hc11, wrapsNegative_iff_lt _ _ (by omega) (by omega)]
  omega

theorem edgeBC_ofNat :
    EdgeBC (BitVec.ofNat 17 c1) (BitVec.ofNat 17 c11) ↔ (15 * c11 : Int) < 10 * c1 + 2303 := by
  rw [EdgeBC, chain_ofNat_of_small hc11 (by decide), chain_ofNat_of_small hc1 (by decide),
    chain_ofNat_of_small hc1 (by decide), toNat_ofNat_of_small hc11, wrapsNegative_iff_lt _ _ (by omega) (by omega)]
  omega

theorem edgeDC_ofNat :
    EdgeDC (BitVec.ofNat 17 c1) (BitVec.ofNat 17 c11) ↔ (c11 : Int) ≥ 2 * c1 - 2303 := by
  rw [EdgeDC, chain_ofNat_of_small hc1 (by decide), toNat_ofNat_of_small hc11,
    wrapsNegative_iff_lt _ _ (by omega) (by omega)]
  omega

theorem edgeED_ofNat :
    EdgeED (BitVec.ofNat 17 c1) (BitVec.ofNat 17 c11) ↔ (5 * c11 : Int) ≥ 5 * c1 - 4606 := by
  rw [EdgeED, chain_ofNat_of_small hc11 (by decide), chain_ofNat_of_small hc1 (by decide), toNat_ofNat_of_small hc1,
    toNat_ofNat_of_small hc11, wrapsNegative_iff_lt _ _ (by omega) (by omega)]
  omega

theorem poly_passes_iff (h : ¬ (c1 = 3738 ∧ c11 = 0)) :
    (poly (BitVec.ofNat 17 c1) (BitVec.ofNat 17 c11)).2 = 1 ↔ InPolygon c1 c11 := by
  rw [poly_verdict_iff, edgeAB_ofNat hc1 hc11 h, edgeBC_ofNat hc1 hc11, edgeDC_ofNat hc1 hc11, edgeED_ofNat hc1 hc11,
    InPolygon]

end SmallCounts

/-! ### A block of ones -/

theorem performAll_cons {w : Command} {s t : State} (h : perform w s = .next t) (ws : List Command) :
    performAll (w :: ws) s = performAll ws t := by
  rw [performAll, h]

/-- The state n + 1 ones after reset: the first is not counted, each later one adds to both counts (R130). -/
def onesFed (n : Nat) : State :=
  { State.reset with
    c1 := BitVec.ofNat 12 n, c11 := BitVec.ofNat 12 n, idx := BitVec.ofNat 12 (n + 1), last := 1, first := 0 }

theorem bitStep_one_onesFed (n : Nat) : bitStep 1 (onesFed n) = onesFed (n + 1) := by
  simp [bitStep, onesFed, BitVec.ofNat_add]

theorem bitSteps_ones_onesFed (k n : Nat) : bitSteps (List.replicate k 1) (onesFed n) = onesFed (n + k) := by
  induction k generalizing n with
  | zero => rfl
  | succ k ih => rw [List.replicate_succ, bitSteps, bitStep_one_onesFed, ih, Nat.add_right_comm, Nat.add_assoc]

/-- The first byte 0xFF of a block. -/
theorem perform_byte_of_ones_reset : perform 0x0000000FFE State.reset = .next (onesFed 7) := by
  rw [perform_of_decode (i := .cntByte 0xFF) rfl]
  exact execCntByte_feeds _ _ (by decide)

/-- A later byte 0xFF of the block. -/
theorem perform_byte_of_ones_onesFed {n : Nat} (h : n < 2296) :
    perform 0x0000000FFE (onesFed n) = .next (onesFed (n + 8)) := by
  have hroom : (onesFed n).idx.toNat ≤ 2296 := by
    simp only [onesFed, BitVec.toNat_ofNat]
    omega
  calc perform 0x0000000FFE (onesFed n)
      = execCntByte 0xFF (onesFed n) := perform_of_decode (i := .cntByte 0xFF) rfl _
    _ = .next (bitSteps (List.replicate 8 1) (onesFed n)) := execCntByte_feeds 0xFF _ hroom
    _ = .next (onesFed (n + 8)) := by rw [bitSteps_ones_onesFed]

theorem performAll_bytes_of_ones (k n : Nat) (h : n + 8 * k ≤ 2303) (ws : List Command) :
    performAll (List.replicate k 0x0000000FFE ++ ws) (onesFed n) = performAll ws (onesFed (n + 8 * k)) := by
  induction k generalizing n with
  | zero => rfl
  | succ k ih =>
    rw [List.replicate_succ, List.cons_append, performAll_cons (perform_byte_of_ones_onesFed (by omega)),
      ih _ (by omega), Nat.add_assoc, Nat.mul_succ, Nat.add_comm 8]

/-- The 288 bytes of a whole block of ones, up to the classification (R114). -/
theorem performAll_block_of_ones (ws : List Command) :
    performAll (List.replicate 288 0x0000000FFE ++ ws) State.reset = performAll ws (onesFed 2303) := by
  rw [List.replicate_succ, List.cons_append, performAll_cons perform_byte_of_ones_reset,
    performAll_bytes_of_ones 287 7 (by decide)]

/-! ### CNT_CLASSIFY (R114) -/

theorem zext17_eq (c : Count) : zext17 c = BitVec.ofNat 17 c.toNat := (BitVec.ofNat_toNat 17 c).symm

/-- A complete block: POLY of the counts as they stand in C1 and C11. -/
theorem exec_cntClassify_complete {s : State} (h : s.idx.toNat = 2304) :
    exec .cntClassify s =
      .next (writeVerdict (poly (BitVec.ofNat 17 s.c1.toNat) (BitVec.ofNat 17 s.c11.toNat)) s) := by
  rw [← zext17_eq, ← zext17_eq]
  exact execCntClassify_complete s h

theorem exec_cntClassify_ones {s : State} (hidx : s.idx.toNat = 2304) (hc1 : s.c1.toNat = 2303)
    (hc11 : s.c11.toNat = 2303) : exec .cntClassify s = .next { s with e := 0b1101, v := 0 } := by
  have hpoly : poly (BitVec.ofNat 17 2303) (BitVec.ofNat 17 2303) = (0b1101, 0) := by decide
  rw [exec_cntClassify_complete hidx, hc1, hc11, hpoly]
  rfl

theorem exec_cntClassify_incomplete {s : State} (h : s.idx.toNat ≠ 2304) :
    exec .cntClassify s = .next (afterViolation 3 s) := execCntClassify_incomplete s h

/-! ### Finite sums -/

/-- `f 0 + … + f (n - 1)`. -/
def sumTo (f : Nat → Nat) : Nat → Nat
  | 0 => 0
  | n + 1 => sumTo f n + f n

theorem sum_range_eq_sumTo (f : Nat → Nat) (n : Nat) : ((List.range n).map f).sum = sumTo f n := by
  induction n with
  | zero => rfl
  | succ n ih => rw [List.range_succ, List.map_append, List.sum_append, ih, List.map_singleton, List.sum_singleton, sumTo]

theorem countP_range_eq_sumTo (p : Nat → Bool) (n : Nat) :
    (List.range n).countP p = sumTo (fun k => if p k then 1 else 0) n := by
  induction n with
  | zero => rfl
  | succ n ih => rw [List.range_succ, List.countP_append, ih, List.countP_singleton, sumTo]

theorem sumTo_congr {f g : Nat → Nat} {n : Nat} (h : ∀ k, k < n → f k = g k) : sumTo f n = sumTo g n := by
  induction n with
  | zero => rfl
  | succ n ih => rw [sumTo, sumTo, ih fun k hk => h k (Nat.lt_succ_of_lt hk), h n (Nat.lt_succ_self n)]

theorem sumTo_zero (n : Nat) : sumTo (fun _ => 0) n = 0 := by
  induction n with
  | zero => rfl
  | succ n ih => rw [sumTo, ih]

theorem sumTo_add_fun (f g : Nat → Nat) (n : Nat) : sumTo (fun k => f k + g k) n = sumTo f n + sumTo g n := by
  induction n with
  | zero => rfl
  | succ n ih => rw [sumTo, sumTo, sumTo, ih, Nat.add_add_add_comm]

theorem sumTo_add (f : Nat → Nat) (m n : Nat) : sumTo f (m + n) = sumTo f m + sumTo (fun k => f (m + k)) n := by
  induction n with
  | zero => rfl
  | succ n ih => rw [← Nat.add_assoc, sumTo, ih, sumTo, Nat.add_assoc]

theorem sumTo_reflect (f : Nat → Nat) (n : Nat) : sumTo (fun k => f (n - 1 - k)) n = sumTo f n := by
  induction n with
  | zero => rfl
  | succ n ih =>
    have htail : sumTo (fun k => f (n + 1 - 1 - (1 + k))) n = sumTo f n := by
      rw [← ih]
      exact sumTo_congr fun k _ => congrArg f (by omega)
    rw [Nat.add_comm n 1, sumTo_add, Nat.add_comm 1 n, htail, Nat.add_comm, sumTo, sumTo, sumTo, Nat.zero_add]
    rfl

/-- Twice an arithmetic progression's sum, free of division and of subtraction. -/
theorem sumTo_linear (a b n : Nat) : 2 * sumTo (fun k => a * k + b) n + a * n = a * (n * n) + 2 * (n * b) := by
  induction n with
  | zero =>
    rw [sumTo]
    omega
  | succ n ih =>
    rw [sumTo]
    simp only [Nat.mul_add, Nat.add_mul, Nat.mul_one, Nat.one_mul]
    omega

theorem sumTo_linear_eq {a b n v : Nat} (h : 2 * v + a * n = a * (n * n) + 2 * (n * b)) :
    sumTo (fun k => a * k + b) n = v := by
  have := sumTo_linear a b n
  omega

/-- How many numbers below n lie in an interval. -/
theorem sumTo_interval (lo hi n : Nat) (h : hi ≤ n) :
    sumTo (fun k => if lo ≤ k ∧ k < hi then 1 else 0) n = hi - lo := by
  have hcount : ∀ m, sumTo (fun k => if lo ≤ k ∧ k < hi then 1 else 0) m = min hi m - lo := by
    intro m
    induction m with
    | zero => rw [sumTo, Nat.min_zero, Nat.zero_sub]
    | succ m ih =>
      rw [sumTo, ih]
      split <;> omega
  rw [hcount, Nat.min_eq_left h]

/-- The triangle j ≤ i < m summed by its rows i and by its diagonals i - j. -/
theorem sumTo_rows_eq_diagonals (g : Nat → Nat → Nat) (m : Nat) :
    sumTo (fun i => sumTo (g i) (i + 1)) m = sumTo (fun d => sumTo (fun j => g (d + j) j) (m - d)) m := by
  induction m with
  | zero => rfl
  | succ m ih =>
    have hgrow : ∀ d, d < m + 1 → sumTo (fun j => g (d + j) j) (m + 1 - d) =
        sumTo (fun j => g (d + j) j) (m - d) + g m (m - d) := fun d hd => by
      rw [Nat.succ_sub (Nat.le_of_lt_succ hd), sumTo, Nat.add_sub_cancel' (Nat.le_of_lt_succ hd)]
    have hlast : sumTo (fun d => g m (m - d)) (m + 1) = sumTo (g m) (m + 1) := sumTo_reflect (g m) (m + 1)
    have hcorner : sumTo (fun d => sumTo (fun j => g (d + j) j) (m - d)) (m + 1) =
        sumTo (fun d => sumTo (fun j => g (d + j) j) (m - d)) m := by
      rw [sumTo, Nat.sub_self, sumTo, Nat.add_zero]
    rw [sumTo_congr hgrow, sumTo_add_fun, hlast, hcorner, ← ih, sumTo]

/-! ### The PASS set of the contract square (R117) -/

/-- Where the diagonal c1 - c11 = d passes: for c11 from `diagonalLow d` to below `diagonalHigh d`. Every edge is linear in d and
c11: AB bounds c11 from below, BC and DC from above, and ED ends the diagonals at 921. -/
def diagonalLow (d : Nat) : Nat := 1843 - 4 * d

def diagonalHigh (d : Nat) : Nat := if d ≤ 921 then min (2 * d + 461) (2304 - 2 * d) else 0

theorem diagonalHigh_le (d : Nat) : diagonalHigh d ≤ 2304 - d := by
  rw [diagonalHigh]
  split <;> omega

theorem inPolygon_iff_diagonal (c1 c11 : Nat) :
    InPolygon c1 c11 ↔ c11 ≤ c1 ∧ diagonalLow (c1 - c11) ≤ c11 ∧ c11 < diagonalHigh (c1 - c11) := by
  rw [InPolygon, diagonalLow, diagonalHigh]
  split <;> omega

theorem poly_passes_iff_diagonal {c1 c11 : Nat} (hc1 : c1 ≤ 2303) (hc11 : c11 ≤ 2303) :
    (poly (BitVec.ofNat 17 c1) (BitVec.ofNat 17 c11)).2 = 1 ↔
      c11 ≤ c1 ∧ diagonalLow (c1 - c11) ≤ c11 ∧ c11 < diagonalHigh (c1 - c11) := by
  rw [poly_passes_iff (by omega) (by omega) (by omega), inPolygon_iff_diagonal]

/-- The passing pair (c1, c11) counts 1, a failing one 0. -/
def passes (c1 c11 : Nat) : Nat := if (poly (BitVec.ofNat 17 c1) (BitVec.ofNat 17 c11)).2 = 1 then 1 else 0

/-- A row's passing pairs have c11 ≤ c1. -/
theorem sumTo_passes_row {c1 : Nat} (hc1 : c1 < 2304) : sumTo (passes c1) 2304 = sumTo (passes c1) (c1 + 1) := by
  have hzero : ∀ k, k < 2304 - (c1 + 1) → passes c1 (c1 + 1 + k) = 0 := fun k hk => by
    rw [passes, if_neg]
    rw [poly_passes_iff_diagonal (by omega) (by omega)]
    omega
  rw [← Nat.add_sub_cancel' (Nat.succ_le_of_lt hc1), sumTo_add, sumTo_congr hzero, sumTo_zero, Nat.add_zero]

theorem sumTo_passes_diagonal (d : Nat) :
    sumTo (fun j => passes (d + j) j) (2304 - d) = diagonalHigh d - diagonalLow d := by
  rw [← sumTo_interval _ _ _ (diagonalHigh_le d)]
  refine sumTo_congr fun j hj => ?_
  rw [passes]
  refine ite_congr (propext ?_) (fun _ => rfl) (fun _ => rfl)
  rw [poly_passes_iff_diagonal (by omega) (by omega), Nat.add_sub_cancel]
  exact and_iff_right (Nat.le_add_left j d)

/-- Diagonals 0 to 230 are empty; the next 230 run from AB to BC, the 461 after them from 0 to DC; the rest are empty. -/
theorem sumTo_diagonals : sumTo (fun d => diagonalHigh d - diagonalLow d) 2304 = 583972 := by
  have hempty : ∀ d, d < 231 → diagonalHigh d - diagonalLow d = 0 := fun d hd => by
    rw [diagonalHigh, diagonalLow, if_pos (by omega)]
    omega
  have hrise : ∀ d, d < 230 → diagonalHigh (231 + d) - diagonalLow (231 + d) = 6 * d + 4 := fun d hd => by
    rw [diagonalHigh, diagonalLow, if_pos (by omega)]
    omega
  have hfall : ∀ d, d < 461 → diagonalHigh (231 + 230 + d) - diagonalLow (231 + 230 + d) = 2 * (461 - 1 - d) + 462 :=
    fun d hd => by
      rw [diagonalHigh, diagonalLow, if_pos (by omega)]
      omega
  have hrest : ∀ d, d < 1382 → diagonalHigh (231 + 230 + 461 + d) - diagonalLow (231 + 230 + 461 + d) = 0 :=
    fun d hd => by rw [diagonalHigh, if_neg (by omega), Nat.zero_sub]
  have hrising : sumTo (fun d => 6 * d + 4) 230 = 158930 := sumTo_linear_eq rfl
  have hfalling : sumTo (fun d => 2 * d + 462) 461 = 425042 := sumTo_linear_eq rfl
  rw [show 2304 = 231 + 230 + 461 + 1382 from rfl, sumTo_add, sumTo_add, sumTo_add, sumTo_congr hempty,
    sumTo_congr hrise, sumTo_congr hfall, sumTo_congr hrest, sumTo_zero, sumTo_zero,
    sumTo_reflect fun d => 2 * d + 462, hrising, hfalling]

/-- The PASS set has 583972 pairs. -/
theorem sumTo_passes : sumTo (fun c1 => sumTo (passes c1) 2304) 2304 = 583972 :=
  calc sumTo (fun c1 => sumTo (passes c1) 2304) 2304
      = sumTo (fun c1 => sumTo (passes c1) (c1 + 1)) 2304 := sumTo_congr fun _ => sumTo_passes_row
    _ = sumTo (fun d => sumTo (fun j => passes (d + j) j) (2304 - d)) 2304 := sumTo_rows_eq_diagonals passes 2304
    _ = sumTo (fun d => diagonalHigh d - diagonalLow d) 2304 := sumTo_congr fun d _ => sumTo_passes_diagonal d
    _ = 583972 := sumTo_diagonals

end Sys2Proof.Machine

namespace Sys2Proof.Proofs

open Sys2Proof.Machine Sys2Proof.Safety

/-- Settles O34: E and V get POLY, which is the four edges over the operands alone. -/
theorem classifyWritesPoly : Obligations.ClassifyWritesPoly := by
  refine ⟨fun c1 c11 s => ⟨_, rfl, classified_writeVerdict_poly c1 c11 s, rfl⟩, fun c1 c11 s s' t t' ht ht' => ?_,
    fun w s h => perform_of_match 0xB h (decodeOp_of_op w 0xB) s,
    leavesEV_classify (by decide), leavesEV_classify (by decide), leavesEV_classify (by decide),
    leavesEV_classify (by decide), leavesEV_classify (by decide),
    fun s => (perform_of_decode rfl s).trans (leavesEV_classify (by decide) s)⟩
  cases ht
  cases ht'
  exact ⟨rfl, rfl⟩

/-- Settles O35, by the two arms of CNT_CLASSIFY and, for the example, the state a block of ones leaves. -/
theorem cntClassifyNeedsACompleteBlock : Obligations.CntClassifyNeedsACompleteBlock := by
  refine ⟨fun s h => ⟨_, exec_cntClassify_complete h, classified_writeVerdict_poly _ _ s, rfl, ?again⟩,
    fun s h => exec_cntClassify_incomplete h, fun s t ht => ?cleared,
    fun w s h => perform_of_match 0xF h (decodeOp_of_op w 0xF) s, fun s => exec_cntClassify_ones,
    ⟨{ onesFed 2303 with e := 0b1101, v := 0 }, ?block, rfl, rfl, rfl, rfl⟩⟩
  case again => exact exec_cntClassify_complete h
  case cleared =>
    cases ht
    exact exec_cntClassify_incomplete (by rw [clearCounter_idx]; decide)
  case block =>
    have hlast : perform 0x000000000F (onesFed 2303) = .next { onesFed 2303 with e := 0b1101, v := 0 } :=
      (perform_of_decode rfl _).trans (exec_cntClassify_ones rfl rfl rfl)
    rw [performAll_block_of_ones, performAll_cons hlast]
    rfl

/-- Settles O36, edge by edge; at (3738, 0) by evaluation. -/
theorem polyIsIntegerPredicate : Obligations.PolyIsIntegerPredicate := by
  refine ⟨fun c1 c11 hc1 hc11 hne s => ?_, leavesEV_classify (by decide), fun h => ?_⟩
  · obtain ⟨ab, bc, dc, ed, -⟩ := classified_writeVerdict_poly (BitVec.ofNat 17 c1) (BitVec.ofNat 17 c11) s
    have hed := ed.trans (edgeED_ofNat hc1 hc11)
    exact ⟨_, rfl, ab.trans (edgeAB_ofNat hc1 hc11 hne), bc.trans (edgeBC_ofNat hc1 hc11),
      dc.trans (edgeDC_ofNat hc1 hc11), hed, hed.trans (by omega), poly_passes_iff hc1 hc11 hne⟩
  · obtain ⟨-, -, hdc, -⟩ := h
    omega

/-- Settles O37: on AB, BC and ED the terms in c1 and c11 are multiples of 5 and the offset is not. -/
theorem onlyEdgeDcMeetsEquality : Obligations.OnlyEdgeDcMeetsEquality := by
  refine ⟨fun c1 c11 => by omega, fun c1 c11 hc1 hc11 s => ?_⟩
  have hc1sq : c1 ≤ 3738 := by omega
  have hc11sq : c11 ≤ 3738 := by omega
  have hdc := (classified_writeVerdict_poly (BitVec.ofNat 17 c1) (BitVec.ofNat 17 c11) s).dc
  refine ⟨_, rfl, fun hline => hdc.mpr ((edgeDC_ofNat hc1sq hc11sq).mpr (by omega)), fun hoff => ?_⟩
  refine (poly_passes_iff hc1sq hc11sq (by omega)).trans ?_
  rw [InPolygon]
  omega

/-- Settles O38: the size by summing the diagonals, the rest by what a diagonal holds. -/
theorem passSetOfTheContractSquare : Obligations.PassSetOfTheContractSquare := by
  refine ⟨?size, fun c1 c11 hc1 hc11 hpass => ?bounds, fun c1 hlo hhi => ?rows, fun c11 h => ?columns,
    leavesEV_classify (by decide), leavesEV_classify (by decide), leavesEV_classify (by decide),
    leavesEV_classify (by decide), leavesEV_classify (by decide)⟩
  case size =>
    simp only [sum_range_eq_sumTo, countP_range_eq_sumTo, decide_eq_true_eq]
    exact sumTo_passes
  case bounds =>
    rw [poly_passes_iff_diagonal hc1 hc11, diagonalLow, diagonalHigh] at hpass
    split at hpass <;> omega
  case rows =>
    refine ⟨max (c1 - 921) (2 * c1 - 2303), by omega, ?_⟩
    rw [poly_passes_iff_diagonal (by omega) (by omega), ← inPolygon_iff_diagonal, InPolygon]
    omega
  case columns =>
    refine ⟨min (c11 + 921) ((c11 + 2303) / 2), by omega, ?_⟩
    rw [poly_passes_iff_diagonal (by omega) (by omega), ← inPolygon_iff_diagonal, InPolygon]
    omega

end Sys2Proof.Proofs

/-! SUPPORT. The counter (spec/42_counter.md): what a command, a word and a list of words feed it, and the counts as a function of
the bits fed. -/

namespace Sys2Proof.Machine

open Sys2Proof.Safety

/-! ### One bit and several bits (R130) -/

/-- The pair {current, previous} is 11 exactly when both of its bits are 1 (R130). -/
theorem pair_of_ones_iff (b l : Bit) : (b ++ l : BitVec 2) = 0b11#2 ↔ b = 1 ∧ l = 1 := by
  revert b l
  decide

theorem bitSteps_append (bs cs : List Bit) (s : State) : bitSteps (bs ++ cs) s = bitSteps cs (bitSteps bs s) := by
  induction bs generalizing s with
  | nil => rfl
  | cons b bs ih => exact ih (bitStep b s)

theorem bitSteps_idx (bs : List Bit) (s : State) : (bitSteps bs s).idx = s.idx + BitVec.ofNat 12 bs.length := by
  induction bs generalizing s with
  | nil => exact (BitVec.add_zero _).symm
  | cons b bs ih =>
    rw [bitSteps, ih, bitStep_idx, List.length_cons, Nat.add_comm, BitVec.ofNat_add]
    exact BitVec.add_assoc _ _ _

theorem toNat_bitSteps_idx {bs : List Bit} {s : State} (hroom : s.idx.toNat + bs.length ≤ 2304) :
    (bitSteps bs s).idx.toNat = s.idx.toNat + bs.length := by
  rw [bitSteps_idx, BitVec.toNat_add, BitVec.toNat_ofNat]
  omega

/-- Feeding bits changes the counter registers only. -/
theorem bitSteps_eq_withCounterOf (bs : List Bit) (s : State) : bitSteps bs s = withCounterOf (bitSteps bs s) s :=
  bitSteps_withCounterOf bs s s

/-! ### Commands and words that feed bits -/

/-- Where the block has room, a command that feeds bits does BITSTEP for each of them and nothing else (R132, R133). -/
theorem exec_of_feeds {i : Instr} {s : State} (hfeeds : fedBits i ≠ [])
    (hroom : s.idx.toNat + (fedBits i).length ≤ 2304) : exec i s = .next (bitSteps (fedBits i) s) := by
  cases i with
  | cntBit b =>
    have hone : s.idx.toNat + 1 ≤ 2304 := hroom
    exact execCntBit_feeds b s (by omega)
  | cntByte v =>
    have height : s.idx.toNat + 8 ≤ 2304 := hroom
    exact execCntByte_feeds v s (by omega)
  | _ => exact absurd rfl hfeeds

/-- A command that feeds no bit, other than CNT_CLEAR, leaves the counter registers as they are. -/
theorem withCounterOf_of_effect {i : Instr} {s t : State} (hclear : i ≠ .cntClear) (hnone : fedBits i = [])
    (he : Effect i s t) : t = withCounterOf s t := by
  cases he with
  | clear hi => exact absurd hi hclear
  | bit b hi =>
    subst hi
    cases hnone
  | byte v hi =>
    subst hi
    cases hnone
  | _ => rfl

theorem perform_of_feeds {w : Command} {s : State} (hfeeds : wordBits w ≠ [])
    (hroom : s.idx.toNat + (wordBits w).length ≤ 2304) : perform w s = .next (bitSteps (wordBits w) s) := by
  by_cases hr : rsvField w = 0
  · rw [wordBits_of_decode (decode_legal w hr)] at hfeeds hroom ⊢
    rw [perform_legal w s hr]
    exact exec_of_feeds hfeeds hroom
  · exact absurd (wordBits_illegal w hr) hfeeds

/-- In `t` the counter of `s` has consumed the bits `bs`; the other registers of `t` are left open. -/
def CounterFed (bs : List Bit) (s t : State) : Prop := t = withCounterOf (bitSteps bs s) t

theorem CounterFed.trans {bs cs : List Bit} {s u t : State} (hu : CounterFed bs s u) (ht : CounterFed cs u t) :
    CounterFed (bs ++ cs) s t := by
  have hcounter : bitSteps cs u = withCounterOf (bitSteps (bs ++ cs) s) u := by
    rw [bitSteps_append, ← bitSteps_withCounterOf, ← hu]
  rwa [CounterFed, hcounter] at ht

theorem CounterFed.idx_eq {bs : List Bit} {s t : State} (h : CounterFed bs s t) : t.idx = (bitSteps bs s).idx := by
  rw [h]
  rfl

/-- Every word but CNT_CLEAR's, illegal ones too, completes, and the counter consumes the word's bits and no others. -/
theorem perform_counterFed {w : Command} {s : State} (hclear : decode w ≠ .ok .cntClear)
    (hroom : s.idx.toNat + (wordBits w).length ≤ 2304) :
    ∃ t, perform w s = .next t ∧ CounterFed (wordBits w) s t := by
  by_cases hnone : wordBits w = []
  · rw [hnone]
    by_cases hr : rsvField w = 0
    · obtain ⟨t, ht, he⟩ := exec_answers (decodeOp w) s
      rw [wordBits_of_decode (decode_legal w hr)] at hnone
      rw [decode_legal w hr] at hclear
      exact ⟨t, (perform_legal w s hr).trans ht,
        withCounterOf_of_effect (fun hi => hclear (congrArg Except.ok hi)) hnone he⟩
    · exact ⟨_, perform_illegal w s hr, rfl⟩
  · exact ⟨_, perform_of_feeds hnone hroom, rfl⟩

/-! ### Lists of words -/

theorem performAll_counterFed (ws : List Command) {s : State} (hclear : ∀ w ∈ ws, decode w ≠ .ok .cntClear)
    (hroom : s.idx.toNat + (ws.flatMap wordBits).length ≤ 2304) :
    ∃ t, performAll ws s = .next t ∧ CounterFed (ws.flatMap wordBits) s t := by
  induction ws generalizing s with
  | nil => exact ⟨s, rfl, rfl⟩
  | cons w ws ih =>
    obtain ⟨hw, hws⟩ := List.forall_mem_cons.mp hclear
    rw [List.flatMap_cons, List.length_append] at hroom
    obtain ⟨u, hu, hfed⟩ := perform_counterFed hw (s := s) (by omega)
    have hidx : u.idx.toNat = s.idx.toNat + (wordBits w).length := by
      rw [hfed.idx_eq, toNat_bitSteps_idx (by omega)]
    obtain ⟨t, ht, hrest⟩ := ih hws (s := u) (by omega)
    exact ⟨t, (performAll_cons hu ws).trans ht, hfed.trans hrest⟩

/-- Words that each feed bits do BITSTEP for all of their bits in order, and nothing else. -/
theorem performAll_of_feeds (ws : List Command) {s : State} (hfeeds : ∀ w ∈ ws, wordBits w ≠ [])
    (hroom : s.idx.toNat + (ws.flatMap wordBits).length ≤ 2304) :
    performAll ws s = .next (bitSteps (ws.flatMap wordBits) s) := by
  induction ws generalizing s with
  | nil => rfl
  | cons w ws ih =>
    obtain ⟨hw, hws⟩ := List.forall_mem_cons.mp hfeeds
    rw [List.flatMap_cons, List.length_append] at hroom
    have hidx := toNat_bitSteps_idx (bs := wordBits w) (s := s) (by omega)
    rw [performAll_cons (perform_of_feeds hw (by omega)), ih hws (by omega), List.flatMap_cons,
      bitSteps_append]

theorem decode_encode_cntBit (b : Bit) : decode (encode (.cntBit b)) = .ok (.cntBit b) := by
  obtain ⟨hrsv, hop⟩ := Laws.CanonicalWord.cntBit b
  have hb : bitOperand (encode (.cntBit b)) = b := by
    rw [encode, bitOperand, aField_packWord]
    rcases bit_cases b with rfl | rfl <;> decide
  rw [decode_legal _ hrsv, decodeOp_of_op _ _ hop]
  exact congrArg (Except.ok ∘ Instr.cntBit) hb

theorem wordBits_encode_cntBit (b : Bit) : wordBits (encode (.cntBit b)) = [b] :=
  wordBits_of_decode (decode_encode_cntBit b)

/-- One CNT_BIT for each bit. -/
theorem performAll_cntBits (bs : List Bit) {s : State} (hroom : s.idx.toNat + bs.length ≤ 2304) :
    performAll (bs.map fun b => encode (.cntBit b)) s = .next (bitSteps bs s) := by
  have hbits : (bs.map fun b => encode (.cntBit b)).flatMap wordBits = bs := by
    simp [List.flatMap_map, wordBits_encode_cntBit]
  have hfeeds : ∀ w ∈ bs.map fun b => encode (.cntBit b), wordBits w ≠ [] := by
    simp [wordBits_encode_cntBit]
  rw [performAll_of_feeds _ hfeeds (by rwa [hbits]), hbits]

/-- A CNT_BYTE word right after reset. -/
theorem perform_cntByte_reset {w : Command} {v : BitVec 8} {t : State} (hw : decode w = .ok (.cntByte v))
    (ht : bitSteps (byteBits v) State.reset = t) : perform w State.reset = .next t := by
  rw [perform_of_decode hw, ← ht]
  exact execCntByte_feeds v State.reset (by decide)

/-! ### The counts as a function of the bits fed (R134) -/

/-- One more bit is counted when it is 1 and not the block's first. -/
theorem onesAfterFirst_concat (bs : List Bit) (b : Bit) :
    onesAfterFirst (bs ++ [b]) = onesAfterFirst bs + if bs ≠ [] ∧ b = 1 then 1 else 0 := by
  cases bs with
  | nil => rfl
  | cons a bs => simp [onesAfterFirst, List.countP_append, List.countP_cons]

theorem pairsOfOnes_cons_cons (a c : Bit) (bs : List Bit) :
    pairsOfOnes (a :: c :: bs) = pairsOfOnes (c :: bs) + if a = 1 ∧ c = 1 then 1 else 0 := by
  simp [pairsOfOnes, List.countP_cons]

/-- One more bit makes a pair with the last of those before it, when there are any. -/
theorem pairsOfOnes_concat (bs : List Bit) (b : Bit) :
    pairsOfOnes (bs ++ [b]) = pairsOfOnes bs + if bs ≠ [] ∧ b = 1 ∧ bs.getLast?.getD 0 = 1 then 1 else 0 := by
  induction bs with
  | nil => rfl
  | cons a bs ih =>
    cases bs with
    | nil => simp [pairsOfOnes, List.countP_cons, and_comm]
    | cons c bs =>
      rw [List.cons_append, List.cons_append, pairsOfOnes_cons_cons, ← List.cons_append, ih, pairsOfOnes_cons_cons,
        List.getLast?_cons_cons]
      simp only [ne_eq, reduceCtorEq, not_false_eq_true, true_and]
      omega

theorem onesAfterFirst_le_length (bs : List Bit) : onesAfterFirst bs ≤ bs.length :=
  Nat.le_trans List.countP_le_length (by simp)

theorem pairsOfOnes_le_length (bs : List Bit) : pairsOfOnes bs ≤ bs.length :=
  Nat.le_trans List.countP_le_length (by simp)

/-- The counter registers as R134 gives them for the bits `bs`, the counts modulo 2^12. -/
structure CountsOf (bs : List Bit) (s : State) : Prop where
  c1 : s.c1 = BitVec.ofNat 12 (onesAfterFirst bs)
  c11 : s.c11 = BitVec.ofNat 12 (pairsOfOnes bs)
  idx : s.idx = BitVec.ofNat 12 bs.length
  last : s.last = bs.getLast?.getD 0
  first : s.first = 1 ↔ bs = []

theorem countsOf_nil {s : State} (h : CounterClear s) : CountsOf [] s := by
  obtain ⟨hc1, hc11, hidx, hlast, hfirst⟩ := h
  exact ⟨hc1, hc11, hidx, hlast, iff_of_true hfirst rfl⟩

theorem ofNat_add_ite (n : Nat) (p : Prop) [Decidable p] :
    BitVec.ofNat 12 (n + if p then 1 else 0) = if p then BitVec.ofNat 12 n + 1 else BitVec.ofNat 12 n := by
  split
  · exact BitVec.ofNat_add n 1
  · rfl

/-- BITSTEP keeps the closed form: the induction of R134. -/
theorem countsOf_bitStep {bs : List Bit} {s : State} (h : CountsOf bs s) (b : Bit) :
    CountsOf (bs ++ [b]) (bitStep b s) := by
  obtain ⟨hc1, hc11, hidx, hlast, hfirst⟩ := h
  have hstarted : s.first = 0 ↔ bs ≠ [] := (bit_ne_one_iff s.first).symm.trans (not_congr hfirst)
  refine ⟨?_, ?_, ?_, by simp, by simp⟩
  · rw [bitStep_c1, onesAfterFirst_concat, ofNat_add_ite, hc1]
    simp only [hstarted]
  · rw [bitStep_c11, pairsOfOnes_concat, ofNat_add_ite, hc11]
    simp only [hstarted, pair_of_ones_iff, hlast]
  · rw [bitStep_idx, hidx, List.length_append]
    exact (BitVec.ofNat_add _ 1).symm

theorem countsOf_bitSteps {bs : List Bit} {s : State} (h : CountsOf bs s) (cs : List Bit) :
    CountsOf (bs ++ cs) (bitSteps cs s) := by
  induction cs generalizing bs s with
  | nil => rwa [List.append_nil]
  | cons c cs ih => simpa [bitSteps] using ih (countsOf_bitStep h c)

/-- The closed form speaks of the counter registers alone. -/
theorem CounterFed.countsOf {bs : List Bit} {s t : State} (hfed : CounterFed bs s t) (hclear : CounterClear s) :
    CountsOf bs t := by
  obtain ⟨hc1, hc11, hidx, hlast, hfirst⟩ := countsOf_bitSteps (countsOf_nil hclear) bs
  rw [hfed]
  exact ⟨hc1, hc11, hidx, hlast, hfirst⟩

/-- No count of a block's bits wraps (R135). -/
theorem toNat_ofNat_of_le_block {n : Nat} (h : n ≤ 2304) : (BitVec.ofNat 12 n).toNat = n := by
  rw [BitVec.toNat_ofNat]
  omega

end Sys2Proof.Machine

namespace Sys2Proof.Proofs

open Sys2Proof.Machine Sys2Proof.Safety

/-- Settles O39: CNT_CLEAR is the named update, which reset's counter already meets. -/
theorem cntClearStartsABlock : Obligations.CntClearStartsABlock :=
  ⟨fun _ => rfl, fun w s h => perform_of_match 0xC h (decodeOp_of_op w 0xC) s, rfl⟩

/-- Settles O40, by the two arms of CNT_BIT. -/
theorem cntBitFeedsOneBit : Obligations.CntBitFeedsOneBit := by
  refine ⟨fun b s h => ?_, fun b s h => execCntBit_full b s h, fun w s h => ?_,
    execCntBit_feeds 1 State.reset (by decide)⟩
  · simp only [← pair_of_ones_iff]
    exact execCntBit_feeds b s h
  · rw [← bitOperand_eq]
    exact perform_of_match 0xD h (decodeOp_of_op w 0xD) s

/-- Settles O41: CNT_BYTE and the eight CNT_BITs both do BITSTEP for the byte's bits. -/
theorem cntByteFeedsEightBits : Obligations.CntByteFeedsEightBits := by
  refine ⟨fun v s h => ⟨bitSteps (byteBits v) s, execCntByte_feeds v s h, ?bits, bitSteps_eq_withCounterOf _ s,
      toNat_bitSteps_idx (Nat.add_le_add_right h 8), rfl, rfl⟩,
    fun v s h => execCntByte_late v s h, fun w s h => ?words,
    perform_cntByte_reset (v := 6) rfl rfl, perform_cntByte_reset (v := 3) rfl rfl,
    perform_cntByte_reset (v := 0xC0) rfl rfl⟩
  case bits => exact performAll_cntBits (byteBits v) (Nat.add_le_add_right h 8)
  case words =>
    rw [← byteOperand_eq]
    exact perform_of_match 0xE h (decodeOp_of_op w 0xE) s

/-- Settles O42: the words feed the counter their bits and no others, and BITSTEP keeps the closed form. -/
theorem countsClosedForm : Obligations.CountsClosedForm := by
  rintro ws bs s hclear hnoClear rfl hlen
  have hroom : s.idx.toNat + (ws.flatMap wordBits).length ≤ 2304 := by
    obtain ⟨-, -, hidx, -⟩ := hclear
    rw [hidx]
    simpa using hlen
  obtain ⟨t, ht, hfed⟩ := performAll_counterFed ws hnoClear hroom
  obtain ⟨hc1, hc11, hidx, hlast, hfirst⟩ := hfed.countsOf hclear
  refine ⟨t, ht, ?c1, ?c11, ?idx, hlast, hfirst, fun hfeeds => ?frame⟩
  case c1 => rw [hc1, toNat_ofNat_of_le_block (Nat.le_trans (onesAfterFirst_le_length _) hlen)]
  case c11 => rw [hc11, toNat_ofNat_of_le_block (Nat.le_trans (pairsOfOnes_le_length _) hlen)]
  case idx => rw [hidx, toNat_ofNat_of_le_block hlen]
  case frame =>
    rw [performAll_of_feeds ws hfeeds hroom] at ht
    cases ht
    exact bitSteps_eq_withCounterOf _ s

end Sys2Proof.Proofs

namespace Sys2Proof.Proofs

open Sys2Proof.Machine Sys2Proof.Safety

/-- Settles O46: a word of NOP's row performs NOP, and one with reserved bits set fails R53's test before its OP is looked at. -/
theorem nopChangesNothing : Obligations.NopChangesNothing := by
  refine ⟨fun _ => rfl, fun w s hmatch => ?nop, fun w s _ hreserved => ?illegal⟩
  case nop => exact perform_of_match 0x0 hmatch (decodeOp_of_op w 0x0) s
  case illegal =>
    have hrsv : rsvField w ≠ 0 := fun h => Nat.not_lt.mpr hreserved ((rsvField_eq_zero_iff w).mp h)
    exact reservedBitsRecordViolationOne w s hrsv

end Sys2Proof.Proofs

/-! SUPPORT. The violations (spec/60_exceptions.md): which commands raise one and what it leaves, that the first record stays, and that
no command looks at the record. -/

namespace Sys2Proof.Machine

open Sys2Proof.Safety

/-! ### The violation procedure (R161) -/

theorem raiseViolation_of_viol_eq_zero {s : State} (h : s.viol = 0) (cause : ViolationCause) :
    raiseViolation cause s = { s with viol := 1, vcause := causeCode cause } := by
  rw [raiseViolation, if_pos h]

theorem raiseViolation_of_viol_ne_zero {s : State} (h : s.viol ≠ 0) (cause : ViolationCause) :
    raiseViolation cause s = { s with viol := 1 } := by
  rw [raiseViolation, if_neg h]

/-! ### Which commands raise a violation (R160, R162) -/

/-- The arithmetic unit raises nothing (R160). -/
theorem raisedBy_of_writesR {i : Instr} (h : writesR i = true) (s : State) : raisedBy i s = none := by
  cases i with
  | add | sub | mul2 | mul5 | mul10 | mul15 | mul20 => rfl
  | _ => exact Bool.noConfusion h

/-- Cause 1 belongs to words that name no command. -/
theorem raisedBy_ne_rsvNonzero (i : Instr) (s : State) : raisedBy i s ≠ some .rsvNonzero := by
  cases i with
  | cntBit | cntByte | cntClassify =>
    rw [raisedBy]
    split <;> exact nofun
  | _ => exact nofun

/-- A command raises one violation and does nothing else, or raises none and leaves the record alone. -/
theorem record_cases_of_effect {i : Instr} {s t : State} (he : Effect i s t) :
    (∃ cause, raisedBy i s = some cause ∧ t = raiseViolation cause s) ∨
    (raisedBy i s = none ∧ t.viol = s.viol ∧ t.vcause = s.vcause) := by
  cases he with
  | violation cause hc => exact .inl ⟨cause, hc, rfl⟩
  | arithmetic val hw => exact .inr ⟨raisedBy_of_writesR hw s, rfl, rfl⟩
  | compare val a b hi => rcases hi with rfl | rfl <;> exact .inr ⟨rfl, rfl, rfl⟩
  | classify c1 c11 hi =>
    rcases hi with rfl | ⟨-, hn⟩
    · exact .inr ⟨rfl, rfl, rfl⟩
    · exact .inr ⟨hn, rfl, rfl⟩
  | bit b hi hroom =>
    subst hi
    exact .inr ⟨if_neg hroom, rfl, rfl⟩
  | byte v hi hroom =>
    subst hi
    exact .inr ⟨if_neg (Nat.not_lt.mpr hroom), bitSteps_viol _ s, bitSteps_vcause _ s⟩
  | same hi | extend _ hi | clear hi =>
    subst hi
    exact .inr ⟨rfl, rfl, rfl⟩

theorem eq_raiseViolation_of_effect {i : Instr} {s t : State} {cause : ViolationCause} (he : Effect i s t)
    (hc : raisedBy i s = some cause) : t = raiseViolation cause s := by
  rcases record_cases_of_effect he with ⟨c, hraised, ht⟩ | ⟨hnone, -⟩
  · cases hraised.symm.trans hc
    exact ht
  · cases hnone.symm.trans hc

theorem record_eq_of_effect {i : Instr} {s t : State} (he : Effect i s t) (hn : raisedBy i s = none) :
    t.viol = s.viol ∧ t.vcause = s.vcause := by
  rcases record_cases_of_effect he with ⟨c, hraised, -⟩ | ⟨-, hrecord⟩
  · cases hraised.symm.trans hn
  · exact hrecord

/-! ### The first record stays (R164) -/

theorem raiseViolation_keeps_record {s : State} (hf : Faulted s) (cause : ViolationCause) :
    Faulted (raiseViolation cause s) ∧ (raiseViolation cause s).vcause = s.vcause := by
  have hset : s.viol = 1 := hf
  have hviol : s.viol ≠ 0 := by
    rw [hset]
    decide
  rw [raiseViolation_of_viol_ne_zero hviol]
  exact ⟨rfl, rfl⟩

theorem perform_keeps_record {w : Command} {s t : State} (h : perform w s = .next t) (hf : Faulted s) :
    Faulted t ∧ t.vcause = s.vcause := by
  rcases perform_cases h with ⟨-, rfl⟩ | ⟨-, he⟩
  · exact raiseViolation_keeps_record hf .rsvNonzero
  · rcases record_cases_of_effect he with ⟨cause, -, rfl⟩ | ⟨-, hviol, hvcause⟩
    · exact raiseViolation_keeps_record hf cause
    · exact ⟨hviol.trans hf, hvcause⟩

/-! ### No command looks at the record (R164) -/

section Record

variable (viol : Bit) (vcause : BitVec 2)

theorem raiseViolation_withRecord (cause : ViolationCause) (s : State) :
    raiseViolation cause (withRecord viol vcause s) =
      withRecord 1 (if viol = 0 then causeCode cause else vcause) (raiseViolation cause s) := rfl

/-- Another record before a command makes a difference to the record after it alone. -/
theorem exec_withRecord (i : Instr) (s : State) :
    ∃ t viol' vcause', exec i s = .next t ∧ exec i (withRecord viol vcause s) = .next (withRecord viol' vcause' t) := by
  cases i with
  | cntBit b =>
    by_cases h : s.idx.toNat = 2304
    · exact ⟨_, _, _, execCntBit_full b s h, execCntBit_full b (withRecord viol vcause s) h⟩
    · exact ⟨_, viol, vcause, execCntBit_feeds b s h, execCntBit_feeds b (withRecord viol vcause s) h⟩
  | cntByte v =>
    by_cases h : 2296 < s.idx.toNat
    · exact ⟨_, _, _, execCntByte_late v s h, execCntByte_late v (withRecord viol vcause s) h⟩
    · have hroom := Nat.not_lt.mp h
      refine ⟨_, viol, vcause, execCntByte_feeds v s hroom, ?_⟩
      rw [← bitSteps_withRecord]
      exact execCntByte_feeds v (withRecord viol vcause s) hroom
  | cntClassify =>
    by_cases h : s.idx.toNat = 2304
    · exact ⟨_, viol, vcause, execCntClassify_complete s h, execCntClassify_complete (withRecord viol vcause s) h⟩
    · exact ⟨_, _, _, execCntClassify_incomplete s h, execCntClassify_incomplete (withRecord viol vcause s) h⟩
  | _ => exact ⟨_, viol, vcause, rfl, rfl⟩

theorem perform_withRecord (w : Command) (s : State) :
    ∃ t viol' vcause',
      perform w s = .next t ∧ perform w (withRecord viol vcause s) = .next (withRecord viol' vcause' t) := by
  by_cases hrsv : rsvField w = 0
  · rw [perform_legal w s hrsv, perform_legal w (withRecord viol vcause s) hrsv]
    exact exec_withRecord viol vcause (decodeOp w) s
  · exact ⟨_, _, _, perform_illegal w s hrsv, perform_illegal w (withRecord viol vcause s) hrsv⟩

end Record

end Sys2Proof.Machine

namespace Sys2Proof.Proofs

open Sys2Proof.Machine Sys2Proof.Safety

/-- Settles O47: the procedure with no cause recorded yet, and with one. -/
theorem violationKeepsTheFirstCause : Obligations.ViolationKeepsTheFirstCause := by
  intro cause s
  exact ⟨fun h => raiseViolation_of_viol_eq_zero h cause, fun h => raiseViolation_of_viol_ne_zero h cause, rfl, rfl, rfl⟩

/-- Settles O49: an illegal word raises cause 1, and a command what `raisedBy` says, alone. -/
theorem violationsAreExactlyTheThree : Obligations.ViolationsAreExactlyTheThree := by
  intro w s t h
  refine ⟨fun hw => ?_, fun i hi => ?_⟩
  · have hrsv : rsvField w ≠ 0 := fun h0 => Nat.not_lt.mpr hw ((rsvField_eq_zero_iff w).mp h0)
    rw [perform_illegal w s hrsv, raiseViolation_eq] at h
    exact (Host.Outcome.next.inj h).symm
  · have he : Effect i s t := exec_effect ((perform_of_decode hi s).symm.trans h)
    exact ⟨eq_raiseViolation_of_effect he, eq_raiseViolation_of_effect he, raisedBy_ne_rsvNonzero i s,
      record_eq_of_effect he⟩

/-- Settles O51: the first record stays under commands, reset clears it, and no command looks at it. -/
theorem violationIsStickyAndChangesNoMeaning : Obligations.ViolationIsStickyAndChangesNoMeaning := by
  refine ⟨fun w s t => perform_keeps_record, fun s => ⟨_, rfl, applyReset_viol s, applyReset_vcause s⟩, ?_⟩
  intro w s t viol vcause h
  obtain ⟨u, viol', vcause', hu, hw⟩ := perform_withRecord viol vcause w s
  cases hu.symm.trans h
  exact ⟨_, hw, rfl⟩

end Sys2Proof.Proofs

/-! SUPPORT. The state a reset leaves (spec/70_reset_and_hazards.md R180), STATUS included. -/

namespace Sys2Proof.Machine

/-- A reset leaves IDX at 0, so DONE is 0 (R31). -/
theorem done_applyReset (s : State) : done (applyReset s) = 0 := by
  rw [done_eq, applyReset_idx]
  exact if_neg (by decide)

/-- Of STATUS's fields only FIRST is 1 after a reset (R34). -/
theorem status_applyReset (s : State) : status (applyReset s) = 0x0010 := by
  rw [status, done_applyReset, applyReset_viol, applyReset_vcause, applyReset_first, applyReset_last]
  decide

theorem applyReset_reset : applyReset State.reset = State.reset := rfl

end Sys2Proof.Machine

namespace Sys2Proof.Proofs

open Sys2Proof.Machine

/-- Settles O11: the action answers `applyReset`, whose registers its field lemmas give; `State.reset` is that state again. -/
theorem resetSetsEveryRegister : Obligations.ResetSetsEveryRegister := by
  refine ⟨fun s => ⟨applyReset s, rfl, ?_⟩, ?_⟩
  · simp [done_applyReset, status_applyReset]
  · rw [← applyReset_reset]
    simp [status_applyReset]

end Sys2Proof.Proofs

/-! SUPPORT. The encoder beside the decoder (spec/30_encoding.md): canonical words, the words of a row, and the bits a word uses. -/

namespace Sys2Proof

open Laws.CanonicalWord (opcode)

/-! ### Canonical words (R52) -/

theorem canonicalWord_statement (i : Instr) : Laws.CanonicalWord.Statement i := by
  cases i <;> exact ⟨rsvField_packWord _ _ _, opField_packWord _ _ _⟩

theorem rsvField_encode (i : Instr) : rsvField (encode i) = 0 := (canonicalWord_statement i).1

theorem opField_encode (i : Instr) : opField (encode i) = opcode i := (canonicalWord_statement i).2

/-- A narrow operand widened into A is read back from A's low bits (R51). -/
theorem extractLsb'_setWidth_fixed17 {n : Nat} (hn : n ≤ 17) (v : BitVec n) : (v.setWidth 17).extractLsb' 0 n = v := by
  rw [BitVec.extractLsb'_setWidth_of_le (by omega), BitVec.extractLsb'_eq_self]

theorem bitOperand_encode (b : Bit) : bitOperand (encode (.cntBit b)) = b := by
  rw [encode, bitOperand, aField_packWord, extractLsb'_setWidth_fixed17 (by decide)]

theorem byteOperand_encode (v : BitVec 8) : byteOperand (encode (.cntByte v)) = v := by
  rw [encode, byteOperand, aField_packWord, extractLsb'_setWidth_fixed17 (by decide)]

theorem decodeOp_encode (i : Instr) : decodeOp (encode i) = i := by
  rw [decodeOp_of_op _ _ (opField_encode i)]
  cases i with
  | nop | cntClear | cntClassify => rfl
  | cntBit b => exact congrArg Instr.cntBit (bitOperand_encode b)
  | cntByte v => exact congrArg Instr.cntByte (byteOperand_encode v)
  | _ => simp [encode, opcode]

theorem decode_encode (i : Instr) : decode (encode i) = .ok i := by
  rw [decode_legal _ (rsvField_encode i), decodeOp_encode]

theorem encode_injective : Function.Injective encode := fun i j h => by
  rw [← decodeOp_encode i, h, decodeOp_encode]

/-! ### Words of a row, legal and illegal words (R52 to R54) -/

theorem decode_of_match (op : BitVec 4) {w : Command} {i : Instr} (hm : w &&& 0xC00000000F = op.setWidth 40)
    (hi : opField w = op → decodeOp w = i) : decode w = .ok i := by
  obtain ⟨hrsv, hop⟩ := (match_iff w op).mp hm
  rw [decode_legal w hrsv, hi hop]

theorem rsvField_ne_zero_iff (w : Command) : rsvField w ≠ 0 ↔ 2 ^ 38 ≤ w.toNat := by
  rw [ne_eq, rsvField_eq_zero_iff, Nat.not_lt]

theorem decode_eq_ok_iff (w : Command) (i : Instr) : decode w = .ok i ↔ rsvField w = 0 ∧ decodeOp w = i := by
  by_cases hrsv : rsvField w = 0
  · rw [decode_legal w hrsv, Except.ok.injEq, and_iff_right hrsv]
  · rw [decode_illegal w hrsv]
    exact iff_of_false nofun fun h => hrsv h.1

theorem decode_eq_error_iff (w : Command) : decode w = .error .rsvNonzero ↔ rsvField w ≠ 0 := by
  by_cases hrsv : rsvField w = 0
  · rw [decode_legal w hrsv]
    exact iff_of_false nofun (not_not_intro hrsv)
  · exact iff_of_true (decode_illegal w hrsv) hrsv

/-! ### Used bits (R51) -/

/-- Every word uses all of OP. -/
theorem opField_and_usedBits (u w : Command) : opField (u &&& usedBits w) = opField u := by
  have hall : ∀ op : BitVec 4, opField (usedBits (op.setWidth 40)) = BitVec.allOnes 4 := by decide
  have hand : opField (u &&& usedBits w) = opField u &&& opField (usedBits w) := BitVec.extractLsb'_and
  rw [hand, usedBits_of_opField w _ rfl, hall, BitVec.and_allOnes]

/-- Every word uses all of RSV. -/
theorem rsvField_and_usedBits (u w : Command) : rsvField (u &&& usedBits w) = rsvField u := by
  have hall : ∀ op : BitVec 4, rsvField (usedBits (op.setWidth 40)) = BitVec.allOnes 2 := by decide
  have hand : rsvField (u &&& usedBits w) = rsvField u &&& rsvField (usedBits w) := BitVec.extractLsb'_and
  rw [hand, usedBits_of_opField w _ rfl, hall, BitVec.and_allOnes]

/-- Words with the same OP use the same bits, and the used bits tell the OP. -/
theorem usedBits_congr {w w' : Command} (h : w &&& usedBits w = w' &&& usedBits w) : usedBits w = usedBits w' := by
  have hop : opField w = opField w' := by rw [← opField_and_usedBits w w, h, opField_and_usedBits]
  rw [usedBits_of_opField w _ hop, usedBits_of_opField w' _ rfl]

/-- The used part of a legal word, field by field: all of OP, and of A and B what the row's masks keep. -/
theorem and_usedBits_eq_packWord {w : Command} (hrsv : rsvField w = 0) {op : BitVec 4} (hop : opField w = op)
    (ma mb : Fixed17) (hmask : usedBits (op.setWidth 40) = (0b11#2 ++ mb ++ ma ++ 0b1111#4 : BitVec 40)) :
    w &&& usedBits w = packWord op (aField w &&& ma) (bField w &&& mb) := by
  have hall : op &&& 0b1111#4 = op := BitVec.and_allOnes
  rw [usedBits_of_opField w op hop, hmask]
  conv =>
    lhs
    rw [← packWord_fields w hrsv, packWord_and, hop, hall]

section Legal

variable {w : Command} (hrsv : rsvField w = 0) {op : BitVec 4} (hop : opField w = op)

include hrsv hop

theorem and_usedBits_of_no_operand (hmask : usedBits (op.setWidth 40) = 0xC00000000F) :
    w &&& usedBits w = packWord op 0 0 := by
  rw [and_usedBits_eq_packWord hrsv hop 0#17 0#17 hmask, BitVec.and_zero, BitVec.and_zero]
  rfl

theorem and_usedBits_of_operand_a (hmask : usedBits (op.setWidth 40) = 0xC0001FFFFF) :
    w &&& usedBits w = packWord op (aField w) 0 := by
  rw [and_usedBits_eq_packWord hrsv hop (BitVec.allOnes 17) 0#17 hmask, BitVec.and_allOnes, BitVec.and_zero]
  rfl

theorem and_usedBits_of_operands_ab (hmask : usedBits (op.setWidth 40) = 0xFFFFFFFFFF) :
    w &&& usedBits w = packWord op (aField w) (bField w) := by
  rw [and_usedBits_eq_packWord hrsv hop (BitVec.allOnes 17) (BitVec.allOnes 17) hmask, BitVec.and_allOnes,
    BitVec.and_allOnes]

/-- The n low bits of A, widened with zeros. -/
theorem and_usedBits_of_narrow_operand {n : Nat} (hmask : usedBits (op.setWidth 40) =
      (0b11#2 ++ 0#17 ++ (BitVec.allOnes n).setWidth 17 ++ 0b1111#4 : BitVec 40)) :
    w &&& usedBits w = packWord op (((aField w).extractLsb' 0 n).setWidth 17) 0 := by
  have hlow : aField w &&& (BitVec.allOnes n).setWidth 17 = ((aField w).extractLsb' 0 n).setWidth 17 := by
    apply BitVec.eq_of_getLsbD_eq
    intro i hi
    simp [hi, Bool.and_comm]
  rw [and_usedBits_eq_packWord hrsv hop _ 0#17 hmask, hlow, BitVec.and_zero]
  rfl

end Legal

/-- The command a word's OP selects has that OP. -/
theorem opcode_decodeOp (w : Command) : opField w = opcode (decodeOp w) := by
  rcases opField_cases (opField w) with hop | hop | hop | hop | hop | hop | hop | hop | hop | hop | hop | hop | hop | hop |
    hop | hop <;> rw [decodeOp_of_op w _ hop, hop] <;> rfl

/-- The canonical word of what a legal word decodes to is the word's used part (R51, R55). -/
theorem encode_decodeOp {w : Command} (hrsv : rsvField w = 0) : encode (decodeOp w) = w &&& usedBits w := by
  have hop := opcode_decodeOp w
  cases hi : decodeOp w with
  | nop | cntClear | cntClassify =>
    rw [hi] at hop
    exact (and_usedBits_of_no_operand hrsv hop rfl).symm
  | mul2 a | mul5 a | mul10 a | mul15 a | mul20 a | sext a =>
    rw [hi] at hop
    rw [decodeOp_of_op w _ hop] at hi
    cases hi
    exact (and_usedBits_of_operand_a hrsv hop rfl).symm
  | add a b | sub a b | lt a b | gt a b | classify a b =>
    rw [hi] at hop
    rw [decodeOp_of_op w _ hop] at hi
    cases hi
    exact (and_usedBits_of_operands_ab hrsv hop rfl).symm
  | cntBit b | cntByte v =>
    rw [hi] at hop
    rw [decodeOp_of_op w _ hop] at hi
    cases hi
    exact (and_usedBits_of_narrow_operand hrsv hop rfl).symm

end Sys2Proof

namespace Sys2Proof.Machine

/-- What a word does is decided by its used bits alone (R51). -/
theorem perform_congr_usedBits {w w' : Command} (h : w &&& usedBits w = w' &&& usedBits w) (s : State) :
    perform w s = perform w' s := by
  have hrsv : rsvField w = rsvField w' := by rw [← rsvField_and_usedBits w w, h, rsvField_and_usedBits]
  by_cases hr : rsvField w = 0
  · have hr' : rsvField w' = 0 := hrsv.symm.trans hr
    have hi : decodeOp w = decodeOp w' :=
      encode_injective (by rw [encode_decodeOp hr, encode_decodeOp hr', h, usedBits_congr h])
    rw [perform_legal w s hr, perform_legal w' s hr', hi]
  · rw [perform_illegal w s hr, perform_illegal w' s (hrsv ▸ hr)]

end Sys2Proof.Machine

namespace Sys2Proof.Proofs

open Sys2Proof.Machine Sys2Proof.Safety

/-- Settles O1: the canonical word's RSV is 0, its OP is the command's, and the operand fields read back what was packed. -/
theorem decodeOfEncode : Obligations.DecodeOfEncode := decode_encode

/-- Settles O53: E and V are only ever written together, by POLY and by reset. -/
theorem stepKeepsVerdictInvariant : Obligations.StepKeepsVerdictInvariant := fun _ _ => verdictInv_step

/-- Settles O54: each operation keeps the ranges, BITSTEP where the block has room. -/
theorem stepKeepsRangeInvariant : Obligations.StepKeepsRangeInvariant := fun _ _ => rangeInv_step

/-- Settles O2: the canonical word of what a legal word decodes to is the word's used part. -/
theorem encodeOfDecodeClearsIgnoredBits : Obligations.EncodeOfDecodeClearsIgnoredBits := by
  intro w i h
  obtain ⟨hrsv, rfl⟩ := (decode_eq_ok_iff w i).mp h
  exact ⟨encode_decodeOp hrsv, (rsvField_eq_zero_iff w).mp hrsv⟩

/-- Settles O3: `decode` refuses a word on its RSV and on nothing else. -/
theorem onlyReservedBitsAreIllegal : Obligations.OnlyReservedBitsAreIllegal := by
  intro w
  refine ⟨(decode_eq_error_iff w).trans (rsvField_ne_zero_iff w), ?_⟩
  rw [← rsvField_eq_zero_iff]
  exact ⟨fun ⟨i, hi⟩ => ((decode_eq_ok_iff w i).mp hi).1, fun hrsv => ⟨_, decode_legal w hrsv⟩⟩

/-- Settles O4, row by row: RSV and OP are what the row's match fixes, the operands are the fields of the word. -/
theorem matchedWordsDecodeToTheirRow : Obligations.MatchedWordsDecodeToTheirRow := by
  intro w
  rw [← bitOperand_eq, ← byteOperand_eq]
  exact ⟨fun h => decode_of_match 0x0 h (decodeOp_of_op w 0x0), fun h => decode_of_match 0x1 h (decodeOp_of_op w 0x1),
    fun h => decode_of_match 0x2 h (decodeOp_of_op w 0x2), fun h => decode_of_match 0x3 h (decodeOp_of_op w 0x3),
    fun h => decode_of_match 0x4 h (decodeOp_of_op w 0x4), fun h => decode_of_match 0x5 h (decodeOp_of_op w 0x5),
    fun h => decode_of_match 0x6 h (decodeOp_of_op w 0x6), fun h => decode_of_match 0x7 h (decodeOp_of_op w 0x7),
    fun h => decode_of_match 0x8 h (decodeOp_of_op w 0x8), fun h => decode_of_match 0x9 h (decodeOp_of_op w 0x9),
    fun h => decode_of_match 0xA h (decodeOp_of_op w 0xA), fun h => decode_of_match 0xB h (decodeOp_of_op w 0xB),
    fun h => decode_of_match 0xC h (decodeOp_of_op w 0xC), fun h => decode_of_match 0xD h (decodeOp_of_op w 0xD),
    fun h => decode_of_match 0xE h (decodeOp_of_op w 0xE), fun h => decode_of_match 0xF h (decodeOp_of_op w 0xF)⟩

/-- Settles O6: the used bits fix RSV and, for a legal word, the command. -/
theorem ignoredBitsHaveNoEffect : Obligations.IgnoredBitsHaveNoEffect := fun _ _ s h => perform_congr_usedBits h s

/-- Settles O5: the words are the canonical words of their commands, but for the last two, which have ignored and reserved
bits set. -/
theorem writtenWordsDecode : Obligations.WrittenWordsDecode :=
  ⟨decode_encode .nop, decode_encode (.add 5 3), decode_encode (.sub 3 5), decode_encode (.mul10 2303),
    decode_encode (.lt 8640 13828), decode_encode (.gt 0 0x10000), decode_encode (.sext 0x1FFFE),
    decode_encode (.classify 1500 697), decode_encode (.cntByte 0xAA), rfl, rfl⟩

end Sys2Proof.Proofs

/-! SUPPORT. The host's side and the step (spec/20_memory.md R42 to R46, spec/10_state.md R20 to R35): commands neither see nor change
the host's lists, every action is answered, and which command writes which register. -/

namespace Sys2Proof.Machine

open Sys2Proof.Safety

/-! ### Commands and the host's side (R5, R20) -/

theorem hostSide_of_effect {i : Instr} {s t : State} (he : Effect i s t) :
    t.pending = s.pending ∧ t.reads = s.reads := by
  cases he with
  | byte v => exact ⟨bitSteps_pending _ s, bitSteps_reads _ s⟩
  | _ => exact ⟨rfl, rfl⟩

theorem exec_withHostSide {i : Instr} {s t : State} (as : List HostAction) (rs : List PortValue)
    (h : exec i s = .next t) : exec i (withHostSide as rs s) = .next (withHostSide as rs t) := by
  cases i with
  | cntBit b =>
    by_cases hfull : s.idx.toNat = 2304
    · cases (execCntBit_full b s hfull).symm.trans h
      exact execCntBit_full b (withHostSide as rs s) hfull
    · cases (execCntBit_feeds b s hfull).symm.trans h
      exact execCntBit_feeds b (withHostSide as rs s) hfull
  | cntByte v =>
    by_cases hlate : 2296 < s.idx.toNat
    · cases (execCntByte_late v s hlate).symm.trans h
      exact execCntByte_late v (withHostSide as rs s) hlate
    · have hroom := Nat.not_lt.mp hlate
      cases (execCntByte_feeds v s hroom).symm.trans h
      rw [← bitSteps_withHostSide]
      exact execCntByte_feeds v (withHostSide as rs s) hroom
  | cntClassify =>
    by_cases hfull : s.idx.toNat = 2304
    · cases (execCntClassify_complete s hfull).symm.trans h
      exact execCntClassify_complete (withHostSide as rs s) hfull
    · cases (execCntClassify_incomplete s hfull).symm.trans h
      exact execCntClassify_incomplete (withHostSide as rs s) hfull
  | _ =>
    cases h
    rfl

/-- Every word is answered; the answer keeps the host's lists, and with another list of actions it is the same but for
that list. -/
theorem perform_setPending (w : Command) (s : State) :
    ∃ t, perform w s = .next t ∧ t.pending = s.pending ∧
      ∀ as, perform w (setPending as s) = .next (setPending as t) := by
  by_cases hrsv : rsvField w = 0
  · obtain ⟨t, ht, he⟩ := exec_answers (decodeOp w) s
    obtain ⟨hpending, hreads⟩ := hostSide_of_effect he
    refine ⟨t, (perform_legal w s hrsv).trans ht, hpending, fun as => ?_⟩
    have hsame : withHostSide as s.reads t = setPending as t := by
      rw [← hreads]
      rfl
    rw [perform_legal w _ hrsv, ← hsame]
    exact exec_withHostSide as s.reads ht
  · exact ⟨_, perform_illegal w s hrsv, rfl, fun as => perform_illegal w _ hrsv⟩

/-! ### The counter at the start of a block (R131, R181) -/

theorem clearCounter_of_counterClear {s : State} (h : CounterClear s) : clearCounter s = s := by
  obtain ⟨hc1, hc11, hidx, hlast, hfirst⟩ := h
  cases s
  cases hc1
  cases hc11
  cases hidx
  cases hlast
  cases hfirst
  rfl

/-! ### Ports (R35) -/

theorem portValue_of_lt_nine {p : Nat} (h : p < 9) (s : State) : ∃ val, portValue p s = some val := by
  match p with
  | 0 | 1 | 2 | 3 | 4 | 5 | 6 | 7 | 8 => exact ⟨_, rfl⟩

theorem portValue_of_nine_le {p : Nat} (h : 9 ≤ p) (s : State) : portValue p s = none := by
  obtain ⟨n, rfl⟩ := Nat.exists_eq_add_of_le' h
  rfl

theorem readPort_of_some {p : Nat} {s : State} {val : PortValue} (h : portValue p s = some val) :
    readPort p s = .next (recordRead val s) := by
  rw [readPort, h]

theorem readPort_of_nine_le {p : Nat} (h : 9 ≤ p) (s : State) : readPort p s = .refused (.noSuchPort p) := by
  rw [readPort, portValue_of_nine_le h]

/-! ### Steps (R42, R43, R46) -/

/-- Every table word has 40 bits, so the placed word is the number's own. -/
theorem tableWord_forty (w : Nat) : tableWord 40 w = BitVec.ofNat 40 w := by
  apply BitVec.eq_of_toNat_eq
  simp [tableWord]

theorem step_of_nil {s : State} (h : s.pending = []) : step s = .next s := by
  rw [step, h]
  rfl

theorem step_of_cons {s : State} {a : HostAction} {rest : List HostAction} (h : s.pending = a :: rest) :
    step s = performAction a (setPending rest s) := by
  rw [step, h]

/-- The host's list, action by action: as many steps as there are words at its head perform those words in order. -/
theorem run_commands (ws : List Command) (rest : List HostAction) (s : State) :
    Host.Core.run core ws.length (setPending (ws.map HostAction.command ++ rest) s) =
      performAll ws (setPending rest s) := by
  induction ws generalizing s with
  | nil => rfl
  | cons w ws ih =>
    obtain ⟨t, -, -, ht⟩ := perform_setPending w s
    have hstep : core.step (setPending ((w :: ws).map HostAction.command ++ rest) s) =
        .next (setPending (ws.map HostAction.command ++ rest) t) := ht _
    rw [List.length_cons, run_succ core _ _ _ hstep, ih, performAll_cons (ht rest)]

/-- A violation record stays through every step but a reset (R32, R33, R164). -/
theorem step_keeps_record {s t : State} (hf : Faulted s) (h : step s = .next t)
    (hreset : ∀ rest, s.pending ≠ .reset :: rest) : Faulted t ∧ t.vcause = s.vcause := by
  rcases step_cases h with ⟨-, rfl⟩ | ⟨a, rest, hp, ha⟩
  · exact ⟨hf, rfl⟩
  · rcases performAction_cases ha with ⟨w, -, hw⟩ | ⟨p, val, -, -, rfl⟩ | ⟨rfl, -⟩
    · exact perform_keeps_record (s := setPending rest s) hw hf
    · exact ⟨hf, rfl⟩
    · exact absurd hp (hreset rest)

/-! ### Which command writes which register (R20 to R25) -/

section Frame

variable {i : Instr} {s t : State} (he : Effect i s t)

include he

theorem r_eq_of_effect (h : writesR i = false) : t.r = s.r := by
  cases he with
  | arithmetic val hw => cases hw.symm.trans h
  | byte v => exact bitSteps_r _ s
  | _ => rfl

theorem f_eq_of_effect (hlt : ∀ a b, i ≠ .lt a b) (hgt : ∀ a b, i ≠ .gt a b) : t.f = s.f := by
  cases he with
  | compare val a b hi => exact absurd hi (not_or_intro (hlt a b) (hgt a b))
  | byte v => exact bitSteps_f _ s
  | _ => rfl

theorem x_eq_of_effect (hsext : ∀ a, i ≠ .sext a) : t.x = s.x := by
  cases he with
  | extend a hi => exact absurd hi (hsext a)
  | byte v => exact bitSteps_x _ s
  | _ => rfl

theorem ev_eq_of_effect (hclassify : ∀ a b, i ≠ .classify a b) (hcnt : i ≠ .cntClassify) : t.e = s.e ∧ t.v = s.v := by
  cases he with
  | classify c1 c11 hi => exact absurd hi (not_or_intro (hclassify c1 c11) fun h => hcnt h.1)
  | byte v => exact ⟨bitSteps_e _ s, bitSteps_v _ s⟩
  | _ => exact ⟨rfl, rfl⟩

end Frame

theorem eq_withRecord {s t : State} (hviol : t.viol = s.viol) (hvcause : t.vcause = s.vcause) :
    t = withRecord s.viol s.vcause t := by
  rw [← hviol, ← hvcause]
  rfl

end Sys2Proof.Machine

namespace Sys2Proof.Proofs

open Sys2Proof.Machine Sys2Proof.Safety

/-- Settles O18: no effect is on the host's lists, and no arm of `exec` reads them. -/
theorem commandsIgnoreTheHostSide : Obligations.CommandsIgnoreTheHostSide := by
  intro i s t as rs h
  obtain ⟨hpending, hreads⟩ := hostSide_of_effect (exec_effect h)
  exact ⟨hpending, hreads, exec_withHostSide as rs h⟩

/-- Settles O14: idling, a word, an existing port and a reset are answered; a port numbered 9 or higher is refused. -/
theorem stepAnswersNextUnlessNoSuchPort : Obligations.StepAnswersNextUnlessNoSuchPort := by
  intro s
  cases hp : s.pending with
  | nil => exact .inl ⟨s, step_of_nil hp⟩
  | cons a rest =>
    rw [step_of_cons hp]
    cases a with
    | command w =>
      obtain ⟨t, ht, -⟩ := perform_setPending w (setPending rest s)
      exact .inl ⟨t, ht⟩
    | readPort p =>
      by_cases hport : 9 ≤ p
      · exact .inr ⟨p, rest, hport, rfl, readPort_of_nine_le hport _⟩
      · obtain ⟨val, hval⟩ := portValue_of_lt_nine (Nat.not_le.mp hport) (setPending rest s)
        exact .inl ⟨_, readPort_of_some hval⟩
    | reset => exact .inl ⟨_, rfl⟩

/-- Settles O15, by induction on the words, each step leaving the rest of the list on what its word answers. -/
theorem stepsPerformCommandsInOrder : Obligations.StepsPerformCommandsInOrder := run_commands

/-- Settles O50: the step's word keeps the first record, a read and idling touch no register. -/
theorem violationIsStickyAcrossSteps : Obligations.ViolationIsStickyAcrossSteps := fun _ _ => step_keeps_record

/-- Settles O52, register by register over the effects a command can have. -/
theorem onlyTheListedCommandsWrite : Obligations.OnlyTheListedCommandsWrite := by
  intro i s t h
  have he := exec_effect h
  refine ⟨r_eq_of_effect he, f_eq_of_effect he, x_eq_of_effect he, ev_eq_of_effect he,
    fun hclear hnone => withCounterOf_of_effect hclear hnone he, fun hraised => ?_⟩
  obtain ⟨hviol, hvcause⟩ := record_eq_of_effect he hraised
  exact eq_withRecord hviol hvcause

/-- Settles O7: the step performs the word, and performing it runs the command it decodes to or raises cause 1. -/
theorem stepRunsDecodedCommand : Obligations.StepRunsDecodedCommand := by
  intro s w rest hp
  rw [step_of_cons hp]
  exact ⟨fun i hi => perform_of_decode hi _, fun herr => perform_illegal w _ ((decode_eq_error_iff w).mp herr)⟩

/-- Settles O8: a word of 40 bits is its own table word, and the next step pops what `withFetchWord` put on the list. -/
theorem fetchWordRunsNext : Obligations.FetchWordRunsNext := by
  intro s w i hi
  have htable : decode (tableWord 40 w) = .ok i := by rwa [tableWord_forty]
  refine ⟨(step_setPending_cons _ s).trans (perform_of_decode htable s), ?_⟩
  rw [decodeTableWord, htable]

/-- Settles O9, port by port. -/
theorem portReadsReturnTheRegister : Obligations.PortReadsReturnTheRegister := by
  intro s p rest hp
  rw [step_of_cons hp]
  refine ⟨fun val hval => readPort_of_some ?_, fun hport => readPort_of_nine_le hport _⟩
  rcases hval with ⟨rfl, rfl⟩ | ⟨rfl, rfl⟩ | ⟨rfl, rfl⟩ | ⟨rfl, rfl⟩ | ⟨rfl, rfl⟩ | ⟨rfl, rfl⟩ | ⟨rfl, rfl⟩ |
    ⟨rfl, rfl⟩ | ⟨rfl, rfl⟩ <;> rfl

/-- Settles O12: the step performs the reset, which keeps the host's two lists. -/
theorem stepWithResetPending : Obligations.StepWithResetPending := fun _ _ => step_of_cons

/-- Settles O16: with nothing pending the step idles. -/
theorem idleChangesNothing : Obligations.IdleChangesNothing := fun _ => step_of_nil

/-- Settles O17: RSV decides between the violation of cause 1 and the command, and either is answered. -/
theorem performIsTotal : Obligations.PerformIsTotal := by
  intro w s
  obtain ⟨t, ht, -⟩ := perform_setPending w s
  exact ⟨⟨t, ht⟩, fun h => perform_illegal w s ((rsvField_ne_zero_iff w).mpr h),
    fun h => perform_legal w s ((rsvField_eq_zero_iff w).mpr h)⟩

/-- Settles O13: a cleared counter holds the values CNT_CLEAR writes. -/
theorem clearAfterResetChangesNothing : Obligations.ClearAfterResetChangesNothing := by
  refine ⟨⟨rfl, rfl, rfl, rfl, rfl⟩, fun s h => congrArg Host.Outcome.next (clearCounter_of_counterClear h),
    fun s t h => ?_⟩
  cases h
  exact ⟨rfl, rfl, rfl, rfl, rfl⟩

/-- Settles O55: the reset state is what a reset leaves, and a reset leaves both invariants. -/
theorem resetSatisfiesInvariants : Obligations.ResetSatisfiesInvariants :=
  ⟨rangeInv_applyReset State.reset, verdictInv_applyReset State.reset⟩

end Sys2Proof.Proofs

/-! SUPPORT. The laws of R83 and the exactness of the scalar multiplies (spec/40_fixed17.md R84, R85, R87). -/

namespace Sys2Proof.Machine

open Sys2Proof.Safety

/-! ### Signed sums (R83) -/

theorem s17_bounds (x : Fixed17) : -65536 ≤ s17 x ∧ s17 x ≤ 65535 := by
  have := x.isLt
  rw [s17_eq]
  split <;> omega

/-- A sum of signed values is exact modulo 2^17. -/
theorem s17_add17_emod (x y : Fixed17) : s17 (add17 x y) % 131072 = (s17 x + s17 y) % 131072 := by
  rw [s17_emod, add17_eq, mask17_add_s17, toNat_mask17]

/-! ### The multiplies against the product (R85) -/

/-- A chain and its product differ by nothing or by 2^16 modulo 2^17, and by 2^16 exactly on MISM (R84). -/
theorem chain_sub_product (x : Fixed17) {k : Nat} (hk : k ≤ 16) :
    (((chain x k : Int) - 2 ^ k * x.toNat) % 131072 = 0 ∨ ((chain x k : Int) - 2 ^ k * x.toNat) % 131072 = 65536) ∧
    (Mism x k ↔ ((chain x k : Int) - 2 ^ k * x.toNat) % 131072 = 65536) := by
  rw [← natCast_product]
  by_cases h : Mism x k
  · have hoff := chain_of_mism hk h
    rw [iff_true_left h]
    omega
  · have hexact := chain_of_not_mism hk h
    rw [iff_false_left h]
    omega

section Product

variable (x : Fixed17)

theorem mul5_17_eq_product_iff : mul5_17 x = mask17 (5 * x.toNat) ↔ ¬ Mism x 2 := by
  obtain ⟨h2, hm2⟩ := chain_sub_product x (k := 2) (by decide)
  rw [mul5_17_eq, mask17_eq_iff, hm2]
  omega

theorem mul10_17_eq_product_iff : mul10_17 x = mask17 (10 * x.toNat) ↔ (Mism x 3 ↔ Mism x 1) := by
  obtain ⟨h3, hm3⟩ := chain_sub_product x (k := 3) (by decide)
  obtain ⟨h1, hm1⟩ := chain_sub_product x (k := 1) (by decide)
  rw [mul10_17_eq, mask17_eq_iff, hm3, hm1]
  omega

theorem mul15_17_eq_product_iff : mul15_17 x = mask17 (15 * x.toNat) ↔ ¬ Mism x 4 := by
  obtain ⟨h4, hm4⟩ := chain_sub_product x (k := 4) (by decide)
  rw [mul15_17_eq, mask17_eq_iff, hm4]
  omega

theorem mul20_17_eq_product_iff : mul20_17 x = mask17 (20 * x.toNat) ↔ (Mism x 4 ↔ Mism x 2) := by
  obtain ⟨h4, hm4⟩ := chain_sub_product x (k := 4) (by decide)
  obtain ⟨h2, hm2⟩ := chain_sub_product x (k := 2) (by decide)
  rw [mul20_17_eq, mask17_eq_iff, hm4, hm2]
  omega

end Product

/-- The signed and the unsigned operand have the same multiples modulo 2^17 (R87). -/
theorem mask17_mul_s17 (m : Int) (x : Fixed17) : mask17 (m * x.toNat) = mask17 (m * s17 x) := by
  rw [mask17_eq_iff, ← Int.emod_eq_emod_iff_emod_sub_eq_zero, ← s17_emod x,
    Int.mul_emod, Int.emod_emod, ← Int.mul_emod]

/-- No mismatch while the signed product fits in 17 bits: the top k+1 bits are then all sign (R84, R87). -/
theorem not_mism_of_fits {x : Fixed17} {k : Nat} (hk : k ≤ 4) (hlo : -65536 ≤ 2 ^ k * s17 x)
    (hhi : 2 ^ k * s17 x ≤ 65535) : ¬ Mism x k := by
  have hx := x.isLt
  rw [s17_eq] at hlo hhi
  rw [mism_iff x (by omega)]
  rcases (by omega : k = 0 ∨ k = 1 ∨ k = 2 ∨ k = 3 ∨ k = 4) with rfl | rfl | rfl | rfl | rfl <;> split at hlo <;> omega

end Sys2Proof.Machine

namespace Sys2Proof.Proofs

open Sys2Proof.Machine Sys2Proof.Safety

/-- Settles O28: the laws are those of addition modulo 2^17, and the signed value of the sum is the representative of its
residue in [-65536, 65535]. -/
theorem addSubLaws : Obligations.AddSubLaws := by
  intro x y z
  have hres := s17_add17_emod x y
  have hrange := s17_bounds (add17 x y)
  have hx := s17_bounds x
  have hy := s17_bounds y
  refine ⟨BitVec.add_zero x, BitVec.sub_self x, BitVec.add_comm x y, BitVec.add_assoc x y z, BitVec.add_sub_cancel x y,
    ?_, ?_, ?_⟩ <;> omega

/-- Settles O30: each multiply is a sum of chains, off the product where an odd number of them is; inside the signed ranges
none is. -/
theorem multipliesEqualProductExactlyWhen : Obligations.MultipliesEqualProductExactlyWhen := by
  intro x
  refine ⟨dblk_eq_product_iff x (k := 1) (by decide), mul5_17_eq_product_iff x, mul10_17_eq_product_iff x,
    mul15_17_eq_product_iff x, mul20_17_eq_product_iff x, fun h => ?mul2, fun h => ?mul5, fun h => ?mul10, fun h => ?mul15_20⟩
  case mul2 => rw [mul2_17_eq_product h, mask17_mul_s17]
  case mul5 =>
    have hexact := not_mism_of_fits (x := x) (k := 2) (by decide) (by omega) (by omega)
    rw [(mul5_17_eq_product_iff x).mpr hexact, mask17_mul_s17]
  case mul10 =>
    have h3 := not_mism_of_fits (x := x) (k := 3) (by decide) (by omega) (by omega)
    have h1 := not_mism_of_fits (x := x) (k := 1) (by decide) (by omega) (by omega)
    rw [(mul10_17_eq_product_iff x).mpr (iff_of_false h3 h1), mask17_mul_s17]
  case mul15_20 =>
    have h4 := not_mism_of_fits (x := x) (k := 4) (by decide) (by omega) (by omega)
    have h2 := not_mism_of_fits (x := x) (k := 2) (by decide) (by omega) (by omega)
    rw [(mul15_17_eq_product_iff x).mpr h4, (mul20_17_eq_product_iff x).mpr (iff_of_false h4 h2), mask17_mul_s17,
      mask17_mul_s17]
    exact ⟨rfl, rfl⟩

end Sys2Proof.Proofs

/-! SUPPORT. Blocks (spec/42_counter.md R133 to R137, spec/41_polygon.md R114, R115): bits fed by CNT_BIT and CNT_BYTE alike, the first
bit of a block, and the verdict of a full one. -/

namespace Sys2Proof.Machine

open Sys2Proof.Safety

theorem wordBits_encode (i : Instr) : wordBits (encode i) = fedBits i := wordBits_of_decode (decode_encode i)

/-- Commands that each feed bits do what the CNT_BITs of those bits do, where they fit (R133, R137). -/
theorem performAll_encode_of_feeds (is : List Instr) {s : State} (hfeeds : ∀ i ∈ is, fedBits i ≠ [])
    (hroom : s.idx.toNat + (is.flatMap fedBits).length ≤ 2304) :
    performAll (is.map encode) s = .next (bitSteps (is.flatMap fedBits) s) := by
  have hbits : (is.map encode).flatMap wordBits = is.flatMap fedBits := by
    simp only [List.flatMap_map, wordBits_encode]
  have hwords : ∀ w ∈ is.map encode, wordBits w ≠ [] := by
    simpa only [List.forall_mem_map, wordBits_encode] using hfeeds
  rw [performAll_of_feeds _ hwords (by rwa [hbits]), hbits]

/-- The first bit of a block is in no pair, so LAST is written before it is read (R136). -/
theorem bitStep_first_ignores_last (b l : Bit) {s : State} (h : s.first = 1) :
    bitStep b { s with last := l } = bitStep b s := by
  have hfirst : ¬ s.first = 0 := by
    rw [h]
    decide
  simp only [bitStep, hfirst, false_and, if_false]

theorem bitSteps_first_ignores_last {bs : List Bit} (hne : bs ≠ []) (l : Bit) {s : State} (h : s.first = 1) :
    bitSteps bs { s with last := l } = bitSteps bs s := by
  cases bs with
  | nil => exact absurd rfl hne
  | cons b bs => rw [bitSteps, bitStep_first_ignores_last b l h, bitSteps]

theorem performAll_append_of_next {ws us : List Command} {s t : State} (h : performAll ws s = .next t) :
    performAll (ws ++ us) s = performAll us t := by
  induction ws generalizing s with
  | nil =>
    cases h
    rfl
  | cons w ws ih =>
    obtain ⟨u, hu, -⟩ := perform_setPending w s
    rw [performAll_cons hu] at h
    rw [List.cons_append, performAll_cons hu, ih h]

theorem performAll_encode_singleton (i : Instr) (s : State) : performAll [encode i] s = exec i s := by
  obtain ⟨t, ht, -⟩ := exec_answers i s
  rw [performAll_cons ((perform_of_decode (decode_encode i) s).trans ht), ht]
  rfl

end Sys2Proof.Machine

namespace Sys2Proof.Proofs

open Sys2Proof.Machine Sys2Proof.Safety

/-- Settles O43: either list does BITSTEP for the same bits. -/
theorem splitIntoBytesDoesNotMatter : Obligations.SplitIntoBytesDoesNotMatter := by
  intro is s hfeeds hroom
  rw [performAll_encode_of_feeds is hfeeds hroom, performAll_cntBits _ hroom]

/-- Settles O44: the first BITSTEP does not look at LAST, and the later ones find what it wrote. -/
theorem startingLastIsUnobservable : Obligations.StartingLastIsUnobservable := by
  intro s l hfirst
  refine ⟨fun b hroom => ?_, fun v hroom => ?_⟩
  · calc exec (.cntBit b) { s with last := l }
        = .next (bitStep b { s with last := l }) := execCntBit_feeds b { s with last := l } hroom
      _ = .next (bitStep b s) := by rw [bitStep_first_ignores_last b l hfirst]
      _ = exec (.cntBit b) s := (execCntBit_feeds b s hroom).symm
  · calc exec (.cntByte v) { s with last := l }
        = .next (bitSteps (byteBits v) { s with last := l }) := execCntByte_feeds v { s with last := l } hroom
      _ = .next (bitSteps (byteBits v) s) := by
        rw [bitSteps_first_ignores_last (bs := byteBits v) (List.cons_ne_nil _ _) l hfirst]
      _ = exec (.cntByte v) s := (execCntByte_feeds v s hroom).symm

/-- Settles O45: the counts are R134's and lie in the square where POLY is the integer predicate. -/
theorem blockVerdict : Obligations.BlockVerdict := by
  intro bs s hclear hlen
  have hroom : s.idx.toNat + bs.length ≤ 2304 := by
    obtain ⟨-, -, hidx, -⟩ := hclear
    rw [hidx, hlen]
    decide
  obtain ⟨hc1, hc11, hidx, -, -⟩ := countsOf_bitSteps (countsOf_nil hclear) bs
  have hones : onesAfterFirst bs ≤ 2304 := hlen ▸ onesAfterFirst_le_length bs
  have hpairs : pairsOfOnes bs ≤ 2304 := hlen ▸ pairsOfOnes_le_length bs
  have hc1Nat : (bitSteps bs s).c1.toNat = onesAfterFirst bs := by
    rw [hc1, List.nil_append, toNat_ofNat_of_le_block hones]
  have hc11Nat : (bitSteps bs s).c11.toNat = pairsOfOnes bs := by
    rw [hc11, List.nil_append, toNat_ofNat_of_le_block hpairs]
  have hfull : (bitSteps bs s).idx.toNat = 2304 := by
    rw [hidx, List.nil_append, hlen]
    rfl
  refine ⟨_, (performAll_append_of_next (performAll_cntBits bs hroom)).trans
    ((performAll_encode_singleton _ _).trans (exec_cntClassify_complete hfull)), ?_, hc1Nat, hc11Nat,
    bitSteps_viol bs s, bitSteps_vcause bs s⟩
  rw [writeVerdict_v, hc1Nat, hc11Nat]
  exact poly_passes_iff (by omega) (by omega) (by omega)

end Sys2Proof.Proofs

/-! SUPPORT. The assembler (spec/30_encoding.md R55, R56): which commands it accepts, and what they assemble to and do. -/

namespace Sys2Proof.Machine

open Sys2Proof.Safety

/-! ### Acceptance (R55) -/

theorem wellFormed_op_iff (m : Mnemonic) (args : List Numeral) :
    (SourceCommand.op m args).wellFormed = true ↔
      (SourceCommand.op m args).countOk = true ∧ (SourceCommand.op m args).rangesOk = true := by
  simp [SourceCommand.wellFormed, SourceCommand.wordOk]

theorem assemble_of_ill_formed {c : SourceCommand} (h : ¬ c.wellFormed = true) : assemble c = none := if_neg h

theorem assemble_op {m : Mnemonic} {args : List Numeral} (h : (SourceCommand.op m args).wellFormed = true) :
    assemble (.op m args) = (expandOp m args).map (List.map encode) := if_pos h

theorem assemble_word {n : Numeral} (h : (SourceCommand.word n).wellFormed = true) :
    assemble (.word n) = some [BitVec.ofInt 40 n.value] := if_pos h

theorem eq_pair_of_length_eq_two {args : List Numeral} (h : args.length = 2) : ∃ a b, args = [a, b] := by
  match args, h with
  | [a, b], _ => exact ⟨a, b, rfl⟩

/-- With the right number of operands every mnemonic has an expansion. -/
theorem expandOp_of_countOk {m : Mnemonic} {args : List Numeral} (h : (SourceCommand.op m args).countOk = true) :
    ∃ is, expandOp m args = some is := by
  cases m with
  | nop | cntClear | cntClassify =>
    obtain rfl := List.length_eq_zero_iff.mp (of_decide_eq_true h)
    exact ⟨_, rfl⟩
  | mul2 | mul5 | mul10 | mul15 | mul20 | sext | cntBit | cntByte | mov | neg =>
    obtain ⟨a, rfl⟩ := List.length_eq_one_iff.mp (of_decide_eq_true h)
    exact ⟨_, rfl⟩
  | add | sub | lt | gt | classify | ge | le =>
    obtain ⟨a, b, rfl⟩ := eq_pair_of_length_eq_two (of_decide_eq_true h)
    exact ⟨_, rfl⟩
  | feedBytes => exact ⟨_, rfl⟩

theorem assemble_accepts_iff (c : SourceCommand) : (∃ ws, assemble c = some ws) ↔ c.wellFormed = true := by
  constructor
  · rintro ⟨ws, hws⟩
    by_cases hwf : c.wellFormed = true
    · exact hwf
    · cases (assemble_of_ill_formed hwf).symm.trans hws
  · intro hwf
    cases c with
    | op m args =>
      obtain ⟨is, his⟩ := expandOp_of_countOk ((wellFormed_op_iff m args).mp hwf).1
      exact ⟨_, by rw [assemble_op hwf, his, Option.map_some]⟩
    | word n => exact ⟨_, assemble_word hwf⟩

/-- Every operand kind is within the 17-bit operands' range. -/
theorem value_bounds_of_inRange {k : OperandKind} {n : Numeral} (h : n.inRange k = true) :
    -65536 ≤ n.value ∧ n.value ≤ 131071 := by
  cases k with
  | fixed17 => exact of_decide_eq_true h
  | bit =>
    cases n with
    | dec n =>
      have hbit : n = 0 ∨ n = 1 := of_decide_eq_true h
      have hvalue : (Numeral.dec n).value = n := rfl
      omega
    | hex digits n => cases h
  | byte =>
    have hbyte : 0 ≤ n.value ∧ n.value ≤ 255 := of_decide_eq_true h
    omega

/-- An accepted command has every operand in the range of some kind. -/
theorem inRange_of_wellFormed {m : Mnemonic} {args : List Numeral} (h : (SourceCommand.op m args).wellFormed = true)
    {n : Numeral} (hn : n ∈ args) : ∃ k, n.inRange k = true := by
  obtain ⟨hcount, hranges⟩ := (wellFormed_op_iff m args).mp h
  rw [SourceCommand.countOk] at hcount
  rw [SourceCommand.rangesOk] at hranges
  split at hranges
  · next ks hks =>
    rw [hks] at hcount
    have hlen : args.length = ks.length := of_decide_eq_true hcount
    rw [← List.map_snd_zip (l₁ := ks) (l₂ := args) (Nat.le_of_eq hlen)] at hn
    obtain ⟨p, hp, rfl⟩ := List.mem_map.mp hn
    exact ⟨p.1, List.all_eq_true.mp hranges p hp⟩
  · next k hk => exact ⟨k, List.all_eq_true.mp hranges n hn⟩

/-- What a mnemonic assembles to are canonical words. -/
theorem canonical_of_assemble {m : Mnemonic} {args : List Numeral} {ws : List Command}
    (h : assemble (.op m args) = some ws) : ∃ is : List Instr, ws = is.map encode := by
  rw [assemble_op ((assemble_accepts_iff _).mp ⟨ws, h⟩)] at h
  obtain ⟨is, -, rfl⟩ := Option.map_eq_some_iff.mp h
  exact ⟨is, rfl⟩

theorem encode_eq_and_usedBits (i : Instr) : encode i = encode i &&& usedBits (encode i) := by
  have h := encode_decodeOp (rsvField_encode i)
  rwa [decodeOp_encode] at h

/-! ### Fixed17 operands (R51, R55, R56) -/

section Fixed17Operands

variable {m : Mnemonic} {a b : Numeral}

theorem wellFormed_of_one_fixed17 (hm : m.signature = .exactly [.fixed17]) (ha : a.inRange .fixed17 = true) :
    (SourceCommand.op m [a]).wellFormed = true := by
  rw [wellFormed_op_iff, SourceCommand.countOk, SourceCommand.rangesOk, hm]
  exact ⟨rfl, by simpa using ha⟩

theorem wellFormed_of_two_fixed17 (hm : m.signature = .exactly [.fixed17, .fixed17]) (ha : a.inRange .fixed17 = true)
    (hb : b.inRange .fixed17 = true) : (SourceCommand.op m [a, b]).wellFormed = true := by
  rw [wellFormed_op_iff, SourceCommand.countOk, SourceCommand.rangesOk, hm]
  exact ⟨rfl, by simpa using ⟨ha, hb⟩⟩

/-- A mnemonic with one Fixed17 operand that stands for one command. -/
theorem assemble_of_one_fixed17 (hm : m.signature = .exactly [.fixed17]) (ha : a.inRange .fixed17 = true) {i : Instr}
    (hi : expandOp m [a] = some [i]) : assemble (.op m [a]) = some [encode i] := by
  rw [assemble_op (wellFormed_of_one_fixed17 hm ha), hi]
  rfl

theorem assemble_of_two_fixed17 (hm : m.signature = .exactly [.fixed17, .fixed17]) (ha : a.inRange .fixed17 = true)
    (hb : b.inRange .fixed17 = true) {i : Instr} (hi : expandOp m [a, b] = some [i]) :
    assemble (.op m [a, b]) = some [encode i] := by
  rw [assemble_op (wellFormed_of_two_fixed17 hm ha hb), hi]
  rfl

end Fixed17Operands

/-- A negative decimal and its 17-bit pattern are one operand (R51). -/
theorem fixedOperand_eq_of_value {a b : Numeral} (h : b.value = a.value + 131072) : fixedOperand a = fixedOperand b := by
  rw [fixedOperand, fixedOperand, mask17_eq_iff, h]
  omega

theorem gt17_eq_ite (x y : Fixed17) : gt17 x y = if 65536 ≤ ((x.toNat : Int) - y.toNat) % 131072 then 0 else 1 := by
  split
  · next h => exact (gt17_eq_zero_iff x y).mpr h
  · next h => exact (gt17_eq_one_iff x y).mpr h

theorem performAll_gt (a b : Numeral) (s : State) :
    performAll [encode (.gt (fixedOperand a) (fixedOperand b))] s = .next { s with
      f := if 65536 ≤ (((mask17 a.value).toNat : Int) - (mask17 b.value).toNat) % 131072 then 0 else 1 } := by
  rw [performAll_encode_singleton, ← gt17_eq_ite]
  rfl

end Sys2Proof.Machine

namespace Sys2Proof.Proofs

open Sys2Proof.Machine Sys2Proof.Safety

/-- Settles O57: acceptance by the operand count, ranges by the operand kinds, canonical words by the encoder. -/
theorem assemblerAcceptsExactlyWellFormed : Obligations.AssemblerAcceptsExactlyWellFormed := by
  refine ⟨assemble_accepts_iff, fun m args n hn hout => ?range, fun m args ws h w hw => ?canonical, fun n hlt => ?word,
    fun n hlo hneg => ?negative⟩
  case range =>
    refine assemble_of_ill_formed fun hwf => ?_
    obtain ⟨k, hk⟩ := inRange_of_wellFormed hwf hn
    have := value_bounds_of_inRange hk
    omega
  case canonical =>
    obtain ⟨is, rfl⟩ := canonical_of_assemble h
    obtain ⟨i, -, rfl⟩ := List.mem_map.mp hw
    exact ⟨encode_eq_and_usedBits i, (rsvField_eq_zero_iff _).mp (rsvField_encode i)⟩
  case word =>
    have hwf : (SourceCommand.word (.hex 10 n)).wellFormed = true := decide_eq_true ⟨rfl, hlt⟩
    rw [assemble_word hwf, Numeral.value, BitVec.ofInt_natCast]
  case negative =>
    have hsext {a : Numeral} (h : -65536 ≤ a.value ∧ a.value ≤ 131071) :
        assemble (.op .sext [a]) = some [encode (.sext (fixedOperand a))] :=
      assemble_of_one_fixed17 rfl (decide_eq_true h) rfl
    have hdec : (Numeral.dec n).value = n := rfl
    have hpat : (Numeral.dec (n + 131072)).value = n + 131072 := rfl
    have hhex : (Numeral.hex 5 (n + 131072).toNat).value = n + 131072 := Int.toNat_of_nonneg (by omega)
    rw [hsext (by omega), hsext (by omega), hsext (by omega), ← fixedOperand_eq_of_value (hpat.trans (by rw [hdec])),
      ← fixedOperand_eq_of_value (hhex.trans (by rw [hdec]))]
    exact ⟨rfl, rfl⟩

/-- Settles O58: each pseudo-instruction expands to one ADD, SUB or GT, and FEEDBYTES to its CNT_BYTEs. -/
theorem pseudoInstructionsExpand : Obligations.PseudoInstructionsExpand := by
  refine ⟨fun a b s ha hb => ⟨?mov, ?neg, ?ge, ?le⟩, fun vs hne hvs => ?feedBytes⟩
  case mov =>
    refine ⟨_, assemble_of_one_fixed17 rfl ha rfl, assemble_of_two_fixed17 rfl ha rfl rfl, ?_⟩
    rw [performAll_encode_singleton]
    exact leavesR_add (BitVec.add_zero (fixedOperand a)) s
  case neg =>
    refine ⟨_, assemble_of_one_fixed17 rfl ha rfl, assemble_of_two_fixed17 rfl rfl ha rfl, ?_⟩
    rw [performAll_encode_singleton]
    exact leavesR_sub ((sub17_eq 0 (fixedOperand a)).trans (congrArg mask17 (Int.zero_sub _))) s
  case ge => exact ⟨_, assemble_of_two_fixed17 rfl ha hb rfl, assemble_of_two_fixed17 rfl ha hb rfl, performAll_gt a b s⟩
  case le => exact ⟨_, assemble_of_two_fixed17 rfl ha hb rfl, assemble_of_two_fixed17 rfl hb ha rfl, performAll_gt b a s⟩
  case feedBytes =>
    have hwf : (SourceCommand.op .feedBytes vs).wellFormed = true :=
      (wellFormed_op_iff _ _).mpr ⟨by simpa [SourceCommand.countOk, Mnemonic.signature] using hne,
        List.all_eq_true.mpr hvs⟩
    rw [assemble_op hwf, expandOp, Option.map_some, List.map_map]
    rfl

end Sys2Proof.Proofs

/-! SUPPORT. Disassembly (spec/30_encoding.md R57): a printed line's tokens, and that its text assembles back. -/

namespace Sys2Proof.Machine

open Sys2Proof.Safety

/-! ### Tokens of a line -/

/-- A text the tokeniser reads as one word. -/
structure IsWord (t : Text) : Prop where
  letters : ∀ c ∈ t, charClass c = .letter
  ne_nil : t ≠ []

/-- The check run character by character, for a text written out. -/
theorem isWord_of_all {t : Text} (h : (t.all fun c => decide (charClass c = .letter)) = true) (hne : t ≠ []) : IsWord t :=
  ⟨fun c hc => of_decide_eq_true (List.all_eq_true.mp h c hc), hne⟩

theorem isWord_mnemonicText (m : Mnemonic) : IsWord (mnemonicText m) :=
  ⟨mnemonicText_letters m, (mnemonicText_ne m).2.2⟩

theorem isWord_wordDirective : IsWord wordDirective := isWord_of_all rfl (List.cons_ne_nil _ _)

theorem isWord_hexText (k n : Nat) : IsWord (hexText k n) :=
  ⟨List.forall_mem_cons.mpr ⟨by decide, List.forall_mem_cons.mpr ⟨by decide, hexDigits_letters k n⟩⟩,
    List.cons_ne_nil _ _⟩

section Words

variable {t : Text} (h : IsWord t)

include h

/-- A word joins nothing before it and is pushed at the first character after it that is no letter. -/
theorem tokensFrom_isWord (rest : Text) : tokensFrom false [] (t ++ rest) = tokensFrom false t rest :=
  tokensFrom_letters t h.letters [] rest

theorem tokensFrom_word : tokensFrom false [] t = [.word t] := by
  have hword := tokensFrom_isWord h []
  rw [List.append_nil] at hword
  rw [hword, tokensFrom, pushWord_nonempty t h.ne_nil]

theorem tokensFrom_word_blank (rest : Text) :
    tokensFrom false [] (t ++ ' ' :: rest) = .word t :: tokensFrom false [] rest :=
  (tokensFrom_isWord h _).trans (pushWord_nonempty t h.ne_nil _)

theorem tokensFrom_word_comma (rest : Text) :
    tokensFrom false [] (t ++ ',' :: rest) = .word t :: .comma :: tokensFrom false [] rest :=
  (tokensFrom_isWord h _).trans (pushWord_nonempty t h.ne_nil _)

end Words

theorem tokens_line1 (m : Mnemonic) {a : Text} (ha : IsWord a) :
    tokens (line1 m a) = [.word (mnemonicText m), .word a] := by
  rw [tokens, line1, tokensFrom_word_blank (isWord_mnemonicText m), tokensFrom_word ha]

theorem tokens_line2 (m : Mnemonic) {a b : Text} (ha : IsWord a) (hb : IsWord b) :
    tokens (line2 m a b) = [.word (mnemonicText m), .word a, .comma, .word b] := by
  have hblank : tokensFrom false [] (' ' :: b) = tokensFrom false [] b := rfl
  rw [tokens, line2, tokensFrom_word_blank (isWord_mnemonicText m), tokensFrom_word_comma ha, hblank, tokensFrom_word hb]

/-- The note's `;` starts a comment, so nothing after it is read. -/
theorem tokens_illegal_line (n : Nat) :
    tokens (wordDirective ++ ' ' :: (hexText 10 n ++ illegalNote)) = [.word wordDirective, .word (hexText 10 n)] := by
  have hcomment : tokensFrom false [] [';', ' ', 'i', 'l', 'l', 'e', 'g', 'a', 'l', ':', ' ', 'R', 'S', 'V'] = [] := rfl
  rw [tokens, tokensFrom_word_blank isWord_wordDirective, illegalNote, tokensFrom_word_blank (isWord_hexText 10 n),
    hcomment]

/-! ### From tokens to words -/

theorem parseLines_nil (fuel : Nat) : parseLines fuel [] = some (.done, []) := by
  cases fuel <;> rfl

/-- A line that holds one command and nothing else. -/
theorem parseLines_command {head : Text} {args : List Token} {c : SourceCommand} (hargs : args.all commandToken = true)
    (hc : parseCommand head args = some c) (fuel : Nat) :
    parseLines (fuel + 1) (.word head :: args) = some (.command c .done, []) := by
  have hall := List.all_eq_true.mp hargs
  have htake : args.takeWhile commandToken = args := by
    simpa only [List.append_nil, List.takeWhile_nil] using List.takeWhile_append_of_pos (l₂ := []) hall
  have hdrop : args.dropWhile commandToken = [] := by
    simpa only [List.append_nil, List.dropWhile_nil] using List.dropWhile_append_of_pos (l₂ := []) hall
  rw [parseLines]
  · rw [htake, hdrop, hc, parseLines_nil]
  · rintro us rfl
    cases hargs
  · rintro n us rfl
    cases hargs

theorem assembleText_of_tokens {t head : Text} {args : List Token} {c : SourceCommand} {ws : List Command}
    (ht : tokens t = .word head :: args) (hargs : args.all commandToken = true) (hc : parseCommand head args = some c)
    (hws : assemble c = some ws) : assembleText t = some ws := by
  have hparse : parseProgram t = some (.command c .done) := by
    rw [parseProgram, ht, List.length_cons, parseLines_command hargs hc]
  rw [assembleText, hparse]
  simp only [assembleProgram, hws, List.append_nil]

theorem parseCommand_mnemonic (m : Mnemonic) {args : List Token} {ns : List Numeral} (h : parseArgs args = some ns) :
    parseCommand (mnemonicText m) args = some (.op m ns) := by
  rw [parseCommand, if_neg (mnemonicText_ne m).1, parseMnemonic_mnemonicText, h]

section Lines

variable {m : Mnemonic} {a b : Text} {n k : Numeral} {ws : List Command}

theorem assembleText_mnemonicText (hws : assemble (.op m []) = some ws) : assembleText (mnemonicText m) = some ws :=
  assembleText_of_tokens (tokensFrom_word (isWord_mnemonicText m)) rfl (parseCommand_mnemonic m rfl) hws

theorem assembleText_line1 (ha : IsWord a) (hn : parseNumeral a = some n) (hws : assemble (.op m [n]) = some ws) :
    assembleText (line1 m a) = some ws := by
  have hargs : parseArgs [.word a] = some [n] := by rw [parseArgs, hn, Option.map_some]
  exact assembleText_of_tokens (tokens_line1 m ha) rfl (parseCommand_mnemonic m hargs) hws

theorem assembleText_line2 (ha : IsWord a) (hb : IsWord b) (hn : parseNumeral a = some n) (hk : parseNumeral b = some k)
    (hws : assemble (.op m [n, k]) = some ws) : assembleText (line2 m a b) = some ws := by
  have hargs : parseArgs [.word a, .comma, .word b] = some [n, k] := by
    simp only [parseArgs, hn, hk, Option.map_some]
  exact assembleText_of_tokens (tokens_line2 m ha hb) rfl (parseCommand_mnemonic m hargs) hws

end Lines

/-! ### Printed operands -/

section FixedOperands

variable (v u : Fixed17)

theorem parseNumeral_fixedText : parseNumeral (fixedText v) = some (.hex 5 v.toNat) := by
  have := v.isLt
  exact parseNumeral_hexText 5 v.toNat (by decide) (by omega)

theorem inRange_printed_fixed17 : (Numeral.hex 5 v.toNat).inRange .fixed17 = true := by
  have := v.isLt
  have hvalue : (Numeral.hex 5 v.toNat).value = v.toNat := rfl
  exact decide_eq_true (by omega)

theorem fixedOperand_printed : fixedOperand (.hex 5 v.toNat) = v := mask17_toNat v

variable {m : Mnemonic}

theorem assembleText_line1_fixedText {f : Fixed17 → Instr} (hm : m.signature = .exactly [.fixed17])
    (hf : ∀ n, expandOp m [n] = some [f (fixedOperand n)]) :
    assembleText (line1 m (fixedText v)) = some [encode (f v)] := by
  have hws := assemble_of_one_fixed17 hm (inRange_printed_fixed17 v) (hf _)
  rw [fixedOperand_printed] at hws
  exact assembleText_line1 (isWord_hexText _ _) (parseNumeral_fixedText v) hws

theorem assembleText_line2_fixedText {f : Fixed17 → Fixed17 → Instr} (hm : m.signature = .exactly [.fixed17, .fixed17])
    (hf : ∀ n k, expandOp m [n, k] = some [f (fixedOperand n) (fixedOperand k)]) :
    assembleText (line2 m (fixedText v) (fixedText u)) = some [encode (f v u)] := by
  have hws := assemble_of_two_fixed17 hm (inRange_printed_fixed17 v) (inRange_printed_fixed17 u) (hf _ _)
  rw [fixedOperand_printed, fixedOperand_printed] at hws
  exact assembleText_line2 (isWord_hexText _ _) (isWord_hexText _ _) (parseNumeral_fixedText v)
    (parseNumeral_fixedText u) hws

end FixedOperands

theorem assembleText_cntBit (b : Bit) : assembleText (instrText (.cntBit b)) = some [encode (.cntBit b)] := by
  rcases bit_cases b with rfl | rfl
  · exact assembleText_line1 (n := .dec 0) (isWord_of_all rfl (List.cons_ne_nil _ _)) rfl rfl
  · exact assembleText_line1 (n := .dec 1) (isWord_of_all rfl (List.cons_ne_nil _ _)) rfl rfl

theorem assembleText_cntByte (v : BitVec 8) : assembleText (instrText (.cntByte v)) = some [encode (.cntByte v)] := by
  have hv := v.isLt
  have hvalue : (Numeral.hex 2 v.toNat).value = v.toNat := rfl
  have hrange : (Numeral.hex 2 v.toNat).inRange .byte = true := decide_eq_true (by omega)
  have hwf : (SourceCommand.op .cntByte [.hex 2 v.toNat]).wellFormed = true :=
    (wellFormed_op_iff _ _).mpr ⟨rfl, by simpa [SourceCommand.rangesOk, Mnemonic.signature] using hrange⟩
  have hbyte : byteNumeral (.hex 2 v.toNat) = v := by
    rw [byteNumeral, hvalue, BitVec.ofInt_natCast, BitVec.ofNat_toNat, BitVec.setWidth_eq]
  have hws : assemble (.op .cntByte [.hex 2 v.toNat]) = some [encode (.cntByte v)] := by
    rw [assemble_op hwf, expandOp, hbyte]
    rfl
  exact assembleText_line1 (isWord_hexText _ _) (parseNumeral_hexText 2 v.toNat (by decide) (by omega)) hws

/-! ### Disassembly assembles back (R57) -/

/-- A command's text assembles to its canonical word. -/
theorem assembleText_instrText (i : Instr) : assembleText (instrText i) = some [encode i] := by
  cases i with
  | nop => exact assembleText_mnemonicText (m := .nop) rfl
  | cntClear => exact assembleText_mnemonicText (m := .cntClear) rfl
  | cntClassify => exact assembleText_mnemonicText (m := .cntClassify) rfl
  | mul2 a | mul5 a | mul10 a | mul15 a | mul20 a | sext a => exact assembleText_line1_fixedText a rfl fun _ => rfl
  | add a b | sub a b | lt a b | gt a b | classify a b => exact assembleText_line2_fixedText a b rfl fun _ _ => rfl
  | cntBit b => exact assembleText_cntBit b
  | cntByte v => exact assembleText_cntByte v

theorem disassemble_legal {w : Command} (hrsv : rsvField w = 0) : disassemble w = instrText (decodeOp w) := by
  rw [disassemble, decode_legal w hrsv]

theorem assembleText_disassemble_legal {w : Command} (hrsv : rsvField w = 0) :
    assembleText (disassemble w) = some [w &&& usedBits w] := by
  rw [disassemble_legal hrsv, assembleText_instrText, encode_decodeOp hrsv]

theorem assembleText_disassemble_illegal {w : Command} (hrsv : rsvField w ≠ 0) :
    assembleText (disassemble w) = some [w] := by
  have hw := w.isLt
  have hparse : parseNumeral (hexText 10 w.toNat) = some (.hex 10 w.toNat) :=
    parseNumeral_hexText 10 w.toNat (by decide) (by omega)
  have hcommand : parseCommand wordDirective [.word (hexText 10 w.toNat)] = some (.word (.hex 10 w.toNat)) := by
    rw [parseCommand, if_pos rfl, parseArgs, hparse, Option.map_some]
  have hwf : (SourceCommand.word (.hex 10 w.toNat)).wellFormed = true := decide_eq_true ⟨rfl, hw⟩
  have hws : assemble (.word (.hex 10 w.toNat)) = some [w] := by
    rw [assemble_word hwf, Numeral.value, BitVec.ofInt_natCast, BitVec.ofNat_toNat, BitVec.setWidth_eq]
  rw [disassemble, decode_illegal w hrsv]
  exact assembleText_of_tokens (tokens_illegal_line w.toNat) rfl hcommand hws

/-- Two legal words with the same text are one command, for the text assembles to its canonical word. -/
theorem disassemble_eq_iff {w w' : Command} (hw : rsvField w = 0) (hw' : rsvField w' = 0) :
    disassemble w = disassemble w' ↔ w &&& usedBits w = w' &&& usedBits w' := by
  constructor
  · intro h
    have htext := congrArg assembleText h
    rw [assembleText_disassemble_legal hw, assembleText_disassemble_legal hw'] at htext
    exact List.singleton_inj.mp (Option.some.inj htext)
  · intro h
    have hi : decodeOp w = decodeOp w' := encode_injective (by rw [encode_decodeOp hw, h, encode_decodeOp hw'])
    rw [disassemble_legal hw, disassemble_legal hw', hi]

end Sys2Proof.Machine

namespace Sys2Proof.Proofs

open Sys2Proof.Machine Sys2Proof.Safety

/-- Settles O59: a legal word prints as its command, whose text assembles to the canonical word; an illegal one as `.word`. -/
theorem disassemblyReassembles : Obligations.DisassemblyReassembles := by
  refine ⟨fun w hw => ?_, fun w hw => ?_, fun w w' hw hw' => ?_⟩
  · exact assembleText_disassemble_legal ((rsvField_eq_zero_iff w).mpr hw)
  · exact assembleText_disassemble_illegal ((rsvField_ne_zero_iff w).mpr hw)
  · exact disassemble_eq_iff ((rsvField_eq_zero_iff w).mpr hw) ((rsvField_eq_zero_iff w').mpr hw')

end Sys2Proof.Proofs
